-- ==== Sys2Proof/Word.lean ====
section
/-! DEFINITION. The word types of the core and the widening between them (00_scope R9: unsigned values, every
widening is a zero extension). -/

namespace Sys2Proof

/-- A V register, a timer, a memory byte, the immediate `kk`: 8 bits (10_state R20, R22). -/
abbrev Byte := BitVec 8

/-- I, PC, a stack entry, an instruction word: 16 bits (10_state R24, R25, R28). -/
abbrev Word := BitVec 16

/-- The immediate `nnn`: 12 bits (30_encoding R72). -/
abbrev Addr := BitVec 12

/-- The number of a V register, 0x0 to 0xF (10_state R20). -/
abbrev Reg := Fin 16

/-- The number of a key, 0x0 to 0xF (10_state R34). -/
abbrev Key := Fin 16

/-- One bit per key, bit k for key k (10_state R34). -/
abbrev Keys := BitVec 16

end Sys2Proof
end

