-- ==== Sys2Proof/Syntax.lean ====
section
/-! DEFINITION. The 34 instructions, one constructor per row of 30_encoding R75 (spec/opcode_table.json), named
after the row's mnemonic. A register operand is a `Reg`, so every register number is one of the sixteen; the sprite
height of DRW is a count. -/

namespace Sys2Proof

/-- The instruction set (30_encoding R75). The destination is the first operand, as in the table. -/
inductive Instr where
  /-- 00E0 -/
  | cls
  /-- 00EE -/
  | ret
  /-- 1nnn -/
  | jpAddr (nnn : Addr)
  /-- 2nnn -/
  | callAddr (nnn : Addr)
  /-- 3xkk -/
  | seVxByte (x : Reg) (kk : Byte)
  /-- 4xkk -/
  | sneVxByte (x : Reg) (kk : Byte)
  /-- 5xy0 -/
  | seVxVy (x y : Reg)
  /-- 6xkk -/
  | ldVxByte (x : Reg) (kk : Byte)
  /-- 7xkk -/
  | addVxByte (x : Reg) (kk : Byte)
  /-- 8xy0 -/
  | ldVxVy (x y : Reg)
  /-- 8xy1 -/
  | orVxVy (x y : Reg)
  /-- 8xy2 -/
  | andVxVy (x y : Reg)
  /-- 8xy3 -/
  | xorVxVy (x y : Reg)
  /-- 8xy4 -/
  | addVxVy (x y : Reg)
  /-- 8xy5 -/
  | subVxVy (x y : Reg)
  /-- 8xy6; the field y is decoded and its register is not used (30_encoding R84). -/
  | shrVx (x y : Reg)
  /-- 8xy7 -/
  | subnVxVy (x y : Reg)
  /-- 8xyE; the field y is decoded and its register is not used (30_encoding R84). -/
  | shlVx (x y : Reg)
  /-- 9xy0 -/
  | sneVxVy (x y : Reg)
  /-- Annn -/
  | ldIAddr (nnn : Addr)
  /-- Bnnn -/
  | jpV0Addr (nnn : Addr)
  /-- Cxkk -/
  | rndVxByte (x : Reg) (kk : Byte)
  /-- Dxyn; n is the number of sprite rows. -/
  | drwVxVyNibble (x y : Reg) (n : Nat)
  /-- Ex9E -/
  | skpVx (x : Reg)
  /-- ExA1 -/
  | sknpVx (x : Reg)
  /-- Fx07 -/
  | ldVxDT (x : Reg)
  /-- Fx0A -/
  | ldVxK (x : Reg)
  /-- Fx15 -/
  | ldDTVx (x : Reg)
  /-- Fx18 -/
  | ldSTVx (x : Reg)
  /-- Fx1E -/
  | addIVx (x : Reg)
  /-- Fx29 -/
  | ldFVx (x : Reg)
  /-- Fx33 -/
  | ldBVx (x : Reg)
  /-- Fx55: stores V0 to Vx. -/
  | ldMemVx (x : Reg)
  /-- Fx65: loads V0 to Vx. -/
  | ldVxMem (x : Reg)
  deriving DecidableEq, Repr

end Sys2Proof
end

