-- ==== Sys2Proof/WellFormed.lean ====
section
/-! DEFINITION. Which instruction terms have an encoding. Register numbers and the immediates `kk` and `nnn` have
exactly the width of their field, so the one thing left to check is DRW's height (log entry 19). -/

namespace Sys2Proof

/-- The height of a sprite fits the 4-bit field `n` (30_encoding R72, R73: a count of 0 to 15). -/
def heightFits (n : Nat) : Bool := n < 16

/-- Well-formed: every operand fits its field. -/
def WellFormed : Instr → Bool
  | .drwVxVyNibble _ _ n => heightFits n
  | .cls | .ret | .jpAddr _ | .callAddr _ | .seVxByte _ _ | .sneVxByte _ _ | .seVxVy _ _ | .ldVxByte _ _
  | .addVxByte _ _ | .ldVxVy _ _ | .orVxVy _ _ | .andVxVy _ _ | .xorVxVy _ _ | .addVxVy _ _ | .subVxVy _ _
  | .shrVx _ _ | .subnVxVy _ _ | .shlVx _ _ | .sneVxVy _ _ | .ldIAddr _ | .jpV0Addr _ | .rndVxByte _ _ | .skpVx _
  | .sknpVx _ | .ldVxDT _ | .ldVxK _ | .ldDTVx _ | .ldSTVx _ | .addIVx _ | .ldFVx _ | .ldBVx _ | .ldMemVx _
  | .ldVxMem _ => true

end Sys2Proof
end

