-- ==== Sys2Proof/Decode.lean ====
section
/-! DEFINITION. Decoding, total on all 65536 words and on any bytes (30_encoding R70 to R84), and the encoder
written from the same table. -/

namespace Sys2Proof

/-- A word from its two bytes, the byte at the lower address first: `op = M[PC] ++ M[PC+1]` (20_memory R51). -/
def wordOfBytes (hi lo : Byte) : Word := hi ++ lo

/-- The two bytes of a word in the order they stand in memory (20_memory R51). -/
def bytesOfWord (op : Word) : List Byte := [op.extractLsb' 8 8, op.extractLsb' 0 8]

/-- `fam = op[15:12]` (30_encoding R72). -/
def fieldFam (op : Word) : Nat := op.toNat / 0x1000

/-- `x = op[11:8]` (30_encoding R72). -/
def fieldX (op : Word) : Reg := Fin.ofNat 16 (op.toNat / 0x100)

/-- `y = op[7:4]` (30_encoding R72). -/
def fieldY (op : Word) : Reg := Fin.ofNat 16 (op.toNat / 0x10)

/-- `n = op[3:0]` (30_encoding R72). -/
def fieldN (op : Word) : Nat := op.toNat % 0x10

/-- `kk = op[7:0]` (30_encoding R72). -/
def fieldKK (op : Word) : Byte := BitVec.ofNat 8 op.toNat

/-- `nnn = op[11:0]` (30_encoding R72). -/
def fieldNNN (op : Word) : Addr := BitVec.ofNat 12 op.toNat

/-- Family 0: the whole word is compared (30_encoding R74). -/
def decodeFam0 (op : Word) : Option Instr :=
  match op.toNat with
  | 0x00E0 => some .cls
  | 0x00EE => some .ret
  | _ => none

/-- Family 8: the trailing nibble selects the operation (30_encoding R74, R76). -/
def decodeFam8 (op : Word) : Option Instr :=
  match fieldN op with
  | 0x0 => some (.ldVxVy (fieldX op) (fieldY op))
  | 0x1 => some (.orVxVy (fieldX op) (fieldY op))
  | 0x2 => some (.andVxVy (fieldX op) (fieldY op))
  | 0x3 => some (.xorVxVy (fieldX op) (fieldY op))
  | 0x4 => some (.addVxVy (fieldX op) (fieldY op))
  | 0x5 => some (.subVxVy (fieldX op) (fieldY op))
  | 0x6 => some (.shrVx (fieldX op) (fieldY op))
  | 0x7 => some (.subnVxVy (fieldX op) (fieldY op))
  | 0xE => some (.shlVx (fieldX op) (fieldY op))
  | _ => none

/-- Family E: the trailing byte selects the operation (30_encoding R74). -/
def decodeFamE (op : Word) : Option Instr :=
  match (fieldKK op).toNat with
  | 0x9E => some (.skpVx (fieldX op))
  | 0xA1 => some (.sknpVx (fieldX op))
  | _ => none

/-- Family F: the trailing byte selects the operation (30_encoding R74). -/
def decodeFamF (op : Word) : Option Instr :=
  match (fieldKK op).toNat with
  | 0x07 => some (.ldVxDT (fieldX op))
  | 0x0A => some (.ldVxK (fieldX op))
  | 0x15 => some (.ldDTVx (fieldX op))
  | 0x18 => some (.ldSTVx (fieldX op))
  | 0x1E => some (.addIVx (fieldX op))
  | 0x29 => some (.ldFVx (fieldX op))
  | 0x33 => some (.ldBVx (fieldX op))
  | 0x55 => some (.ldMemVx (fieldX op))
  | 0x65 => some (.ldVxMem (fieldX op))
  | _ => none

/-- Decoding of a word (30_encoding R74): one of the 34 instructions with its fields, or `none` for UNKNOWN (the
unrecognized words of R82). It reads nothing but the word (40_step_cycle R95). -/
def decodeWord (op : Word) : Option Instr :=
  match fieldFam op with
  | 0x0 => decodeFam0 op
  | 0x1 => some (.jpAddr (fieldNNN op))
  | 0x2 => some (.callAddr (fieldNNN op))
  | 0x3 => some (.seVxByte (fieldX op) (fieldKK op))
  | 0x4 => some (.sneVxByte (fieldX op) (fieldKK op))
  | 0x5 => if fieldN op = 0 then some (.seVxVy (fieldX op) (fieldY op)) else none
  | 0x6 => some (.ldVxByte (fieldX op) (fieldKK op))
  | 0x7 => some (.addVxByte (fieldX op) (fieldKK op))
  | 0x8 => decodeFam8 op
  | 0x9 => if fieldN op = 0 then some (.sneVxVy (fieldX op) (fieldY op)) else none
  | 0xA => some (.ldIAddr (fieldNNN op))
  | 0xB => some (.jpV0Addr (fieldNNN op))
  | 0xC => some (.rndVxByte (fieldX op) (fieldKK op))
  | 0xD => some (.drwVxVyNibble (fieldX op) (fieldY op) (fieldN op))
  | 0xE => decodeFamE op
  | 0xF => decodeFamF op
  | _ => none

/-- What a decoder answers on a sequence of bytes. -/
inductive Decoded where
  /-- An instruction, and the bytes after it. -/
  | instr (i : Instr) (rest : List Byte)
  /-- The first word is no instruction: `UnknownOpcode(op)` (30_encoding R82). -/
  | unknownOpcode (op : Word) (rest : List Byte)
  /-- Fewer than two bytes: no word at all (an instruction is always two bytes, 30_encoding R70). -/
  | truncated
  deriving DecidableEq, Repr

/-- Decoding of bytes: always two bytes, big-endian (30_encoding R70, 20_memory R51). -/
def decodeBytes : List Byte → Decoded
  | hi :: lo :: rest =>
    match decodeWord (wordOfBytes hi lo) with
    | some i => .instr i rest
    | none => .unknownOpcode (wordOfBytes hi lo) rest
  | _ => .truncated

/-- Format `A` (30_encoding R71): family and address. -/
def encodeA (fam : Nat) (nnn : Addr) : Word := BitVec.ofNat 16 (0x1000 * fam + nnn.toNat)

/-- Format `XK` (30_encoding R71): family, register, byte. Format `XS` is the same with a fixed byte. -/
def encodeXK (fam : Nat) (x : Reg) (kk : Byte) : Word := BitVec.ofNat 16 (0x1000 * fam + 0x100 * x.val + kk.toNat)

/-- Formats `XY` and `XYN` (30_encoding R71): family, two registers, trailing nibble. -/
def encodeXYN (fam : Nat) (x y : Reg) (n : Nat) : Word :=
  BitVec.ofNat 16 (0x1000 * fam + 0x100 * x.val + 0x10 * y.val + n)

/-- The word of a well-formed instruction (30_encoding R71, R75). -/
def encode : Instr → Word
  | .cls => 0x00E0
  | .ret => 0x00EE
  | .jpAddr nnn => encodeA 0x1 nnn
  | .callAddr nnn => encodeA 0x2 nnn
  | .seVxByte x kk => encodeXK 0x3 x kk
  | .sneVxByte x kk => encodeXK 0x4 x kk
  | .seVxVy x y => encodeXYN 0x5 x y 0x0
  | .ldVxByte x kk => encodeXK 0x6 x kk
  | .addVxByte x kk => encodeXK 0x7 x kk
  | .ldVxVy x y => encodeXYN 0x8 x y 0x0
  | .orVxVy x y => encodeXYN 0x8 x y 0x1
  | .andVxVy x y => encodeXYN 0x8 x y 0x2
  | .xorVxVy x y => encodeXYN 0x8 x y 0x3
  | .addVxVy x y => encodeXYN 0x8 x y 0x4
  | .subVxVy x y => encodeXYN 0x8 x y 0x5
  | .shrVx x y => encodeXYN 0x8 x y 0x6
  | .subnVxVy x y => encodeXYN 0x8 x y 0x7
  | .shlVx x y => encodeXYN 0x8 x y 0xE
  | .sneVxVy x y => encodeXYN 0x9 x y 0x0
  | .ldIAddr nnn => encodeA 0xA nnn
  | .jpV0Addr nnn => encodeA 0xB nnn
  | .rndVxByte x kk => encodeXK 0xC x kk
  | .drwVxVyNibble x y n => encodeXYN 0xD x y n
  | .skpVx x => encodeXK 0xE x 0x9E
  | .sknpVx x => encodeXK 0xE x 0xA1
  | .ldVxDT x => encodeXK 0xF x 0x07
  | .ldVxK x => encodeXK 0xF x 0x0A
  | .ldDTVx x => encodeXK 0xF x 0x15
  | .ldSTVx x => encodeXK 0xF x 0x18
  | .addIVx x => encodeXK 0xF x 0x1E
  | .ldFVx x => encodeXK 0xF x 0x29
  | .ldBVx x => encodeXK 0xF x 0x33
  | .ldMemVx x => encodeXK 0xF x 0x55
  | .ldVxMem x => encodeXK 0xF x 0x65

/-- The mask and the match of an instruction's row: a word is this instruction exactly when `op & mask = match`
(30_encoding R75). -/
def opcodeRow : Instr → Word × Word
  | .cls => (0xFFFF, 0x00E0)
  | .ret => (0xFFFF, 0x00EE)
  | .jpAddr _ => (0xF000, 0x1000)
  | .callAddr _ => (0xF000, 0x2000)
  | .seVxByte _ _ => (0xF000, 0x3000)
  | .sneVxByte _ _ => (0xF000, 0x4000)
  | .seVxVy _ _ => (0xF00F, 0x5000)
  | .ldVxByte _ _ => (0xF000, 0x6000)
  | .addVxByte _ _ => (0xF000, 0x7000)
  | .ldVxVy _ _ => (0xF00F, 0x8000)
  | .orVxVy _ _ => (0xF00F, 0x8001)
  | .andVxVy _ _ => (0xF00F, 0x8002)
  | .xorVxVy _ _ => (0xF00F, 0x8003)
  | .addVxVy _ _ => (0xF00F, 0x8004)
  | .subVxVy _ _ => (0xF00F, 0x8005)
  | .shrVx _ _ => (0xF00F, 0x8006)
  | .subnVxVy _ _ => (0xF00F, 0x8007)
  | .shlVx _ _ => (0xF00F, 0x800E)
  | .sneVxVy _ _ => (0xF00F, 0x9000)
  | .ldIAddr _ => (0xF000, 0xA000)
  | .jpV0Addr _ => (0xF000, 0xB000)
  | .rndVxByte _ _ => (0xF000, 0xC000)
  | .drwVxVyNibble _ _ _ => (0xF000, 0xD000)
  | .skpVx _ => (0xF0FF, 0xE09E)
  | .sknpVx _ => (0xF0FF, 0xE0A1)
  | .ldVxDT _ => (0xF0FF, 0xF007)
  | .ldVxK _ => (0xF0FF, 0xF00A)
  | .ldDTVx _ => (0xF0FF, 0xF015)
  | .ldSTVx _ => (0xF0FF, 0xF018)
  | .addIVx _ => (0xF0FF, 0xF01E)
  | .ldFVx _ => (0xF0FF, 0xF029)
  | .ldBVx _ => (0xF0FF, 0xF033)
  | .ldMemVx _ => (0xF0FF, 0xF055)
  | .ldVxMem _ => (0xF0FF, 0xF065)

/-- The bytes of an instruction as they stand in memory and in a ROM image (30_encoding R87). -/
def encodeBytes (i : Instr) : List Byte := bytesOfWord (encode i)

/-- The instruction the decoder reads from the word numbered as spec/opcode_table.json numbers it: `w` cut to its
`nbits` bits is the one 16-bit word of the instruction, laid out in memory order and given to `decodeBytes`. -/
def decodeTableWord (nbits w : Nat) : Option Instr :=
  match decodeBytes (bytesOfWord (BitVec.ofNat 16 (w % 2 ^ nbits))) with
  | .instr i _ => some i
  | .unknownOpcode _ _ => none
  | .truncated => none

end Sys2Proof
end

