-- ==== Sys2Proof/Config.lean ====
section
/-! DEFINITION. What is fixed for the machine: the parameters of 00_scope R7, and the one free value, the
random input `rnd` (00_scope R8, 10_state R42). -/

namespace Sys2Proof.Config

/-- `MEM_SIZE`: bytes of memory (00_scope R7). -/
@[simp] abbrev memSize : Nat := 4096

/-- `FONT_BASE`: address of the first glyph (00_scope R7). -/
@[simp] abbrev fontBase : Nat := 0x000

/-- `GLYPH_BYTES`: bytes of one glyph (00_scope R7). -/
@[simp] abbrev glyphBytes : Nat := 5

/-- `PROG_BASE`: load address and reset value of PC (00_scope R7). -/
@[simp] abbrev progBase : Nat := 0x200

/-- `PROG_MAX`: bytes of the largest program, 4096 - 0x200 (00_scope R7). -/
@[simp] abbrev progMax : Nat := 3584

/-- `STACK_DEPTH` (00_scope R7). -/
@[simp] abbrev stackDepth : Nat := 16

/-- The bytes `random_byte()` yields, the n-th sample at argument n: a FREE VALUE. The spec makes `rnd` an 8-bit
input under no law (10_state R42, 43_load_alu R144), so it has no body here and nothing can be proved of its values
(log entry 2). -/
opaque rnd : Nat → Byte

end Sys2Proof.Config
end

