-- ==== Sys2Proof/Machine/State.lean ====
section
/-! DEFINITION. The state of the core, all of 10_state R20 to R39, with two fields of the model's own (the status
output of the last step and the count of random samples), the outcomes a step can stop with, and the state after
reset (10_state R43). -/

namespace Sys2Proof.Machine

/-- Memory as data: (address, byte) pairs in the canonical form of `Memory.wf` (Machine/Ops.lean). -/
abbrev Mem := List Host.Cell

/-- The framebuffer: entry yy is row yy, whose bit xx is the pixel in column xx (10_state R36). -/
abbrev Screen := Vector (BitVec 64) 32

/-- The status a step or a load returns (60_exceptions R211, 10_state R40). -/
inductive Status where
  /-- Code 0: success. -/
  | ok
  /-- Code 1: the fetch of a step that does not wait, with PC + 1 ≥ 4096 (40_step_cycle R93). -/
  | fetchOutOfBounds
  /-- Code 2: CALL with SP = 16 (41_flow R112). -/
  | stackOverflow
  /-- Code 3: RET with SP = 0 (41_flow R111). -/
  | stackUnderflow
  /-- Code 4: a word that is no instruction; it carries the word (40_step_cycle R97). -/
  | unknownOpcode (op : Word)
  /-- Code 5: `load_program` of more than 3584 bytes (47_host_operations R191). -/
  | programTooLarge
  deriving DecidableEq, Repr

/-- The numeric codes of 60_exceptions R211 (only the names are normative). -/
def Status.code : Status → Nat
  | .ok => 0
  | .fetchOutOfBounds => 1
  | .stackOverflow => 2
  | .stackUnderflow => 3
  | .unknownOpcode _ => 4
  | .programTooLarge => 5

/-- The Machine State (10_state). -/
structure State where
  /-- `V[0]` to `V[15]` (R20); `V[15]` is VF (R21). -/
  v : Vector Byte 16
  /-- The index register I (R24). -/
  i : Word
  /-- The program counter (R25). -/
  pc : Word
  /-- The number of return addresses on the stack, 0 to 16 (R29). -/
  sp : Fin 17
  /-- The stack array S (R28). -/
  stack : Vector Word 16
  /-- The delay timer DT (R31). -/
  dt : Byte
  /-- The sound timer ST (R32). -/
  st : Byte
  /-- The memory M (R22); an address not listed reads as reset leaves it. -/
  mem : Mem
  /-- The framebuffer FB (R36). -/
  fb : Screen
  /-- The draw flag DF (R37). -/
  df : Bool
  /-- The keypad snapshot K (R34). -/
  k : Keys
  /-- The awaiting-key flag AK (R38): `none`, or `some r` while a key wait for register r is in progress. -/
  ak : Option Reg
  /-- The key latch KL (R39). -/
  kl : Keys
  /-- The model's own: the status the last step returned (log entry 1); no step's outcome depends on it. -/
  status : Status
  /-- The model's own: how many bytes of `Config.rnd` have been sampled (log entry 2). -/
  rndCount : Nat
  deriving DecidableEq, Repr

/-- Reasons a step stops the machine. THERE IS NONE, so the type has no constructor: an error of the core is a status
returned to the host, after which the next step is an ordinary one (60_exceptions R210, R220; 40_step_cycle R102).
Nobody raises a fault, so nothing about it can be safe or unsafe (log entry 1). -/
inductive Fault where
  deriving DecidableEq, Repr

/-- Reasons the model gives no meaning. -/
inductive Refusal where
  /-- Raised only by an arm of `exec` whose instruction has no meaning yet; no arm does. Safe: the model stops. -/
  | notModelled (mnemonic : String)
  deriving DecidableEq, Repr

/-- What a step or a meaning answers. -/
abbrev Result := Host.Outcome State Fault Refusal

/-- The state after reset, which is the constructed state (10_state R43, 70_reset_and_hazards R240). Memory lists
nothing: every address reads as reset leaves it (the fontset below 0x050, zero above). `status` and `rndCount` are the
model's own (log entries 2 and 3). -/
def State.reset : State where
  v := Vector.replicate 16 0
  i := 0
  pc := 0x200
  sp := 0
  stack := Vector.replicate 16 0
  dt := 0
  st := 0
  mem := []
  fb := Vector.replicate 32 0
  df := false
  k := 0
  ak := none
  kl := 0
  status := .ok
  rndCount := 0

end Sys2Proof.Machine
end

