-- ==== Sys2Proof/Machine/Fontset.lean ====
section
/-! DEFINITION. The 80 bytes of the fontset (10_state R23, the parameter FONTSET of 00_scope R8) and what every byte
of memory holds after reset (10_state R43). -/

namespace Sys2Proof.Machine

/-- The glyphs of the digits 0 to 7, five bytes each, top row first (10_state R23; log entry 5). -/
def glyphs0to7 : List Byte :=
  [0xF0, 0x90, 0x90, 0x90, 0xF0] ++ [0x20, 0x60, 0x20, 0x20, 0x70] ++ [0xF0, 0x10, 0xF0, 0x80, 0xF0] ++
  [0xF0, 0x10, 0xF0, 0x10, 0xF0] ++ [0x90, 0x90, 0xF0, 0x10, 0x10] ++ [0xF0, 0x80, 0xF0, 0x10, 0xF0] ++
  [0xF0, 0x80, 0xF0, 0x90, 0xF0] ++ [0xF0, 0x10, 0x20, 0x40, 0x40]

/-- The glyphs of the digits 8 to F. -/
def glyphs8toF : List Byte :=
  [0xF0, 0x90, 0xF0, 0x90, 0xF0] ++ [0xF0, 0x90, 0xF0, 0x10, 0xF0] ++ [0xF0, 0x90, 0xF0, 0x90, 0x90] ++
  [0xE0, 0x90, 0xE0, 0x90, 0xE0] ++ [0xF0, 0x80, 0x80, 0x80, 0xF0] ++ [0xE0, 0x90, 0x90, 0x90, 0xE0] ++
  [0xF0, 0x80, 0xF0, 0x80, 0xF0] ++ [0xF0, 0x80, 0xF0, 0x80, 0x80]

/-- FONTSET: glyph d at offset 5·d (10_state R23). -/
def fontset : List Byte := glyphs0to7 ++ glyphs8toF

/-- What the byte at an address holds after reset, hence what an unlisted address reads as: the fontset at 0x000 to
0x04F, zero above (10_state R22, R43; log entry 4). -/
def resetByte (a : Nat) : Byte := fontset.getD a 0

end Sys2Proof.Machine
end

