-- ==== Sys2Proof/Machine/Ops.lean ====
section
/-! DEFINITION. The named operations over the state: memory, registers, PC, stack, timers, the errors, the fetch.
Every meaning goes through these. -/

namespace Sys2Proof.Machine

/-! ### Memory as a list in canonical form -/

/-- The byte at address `a`: its entry, else what reset left there. -/
def Memory.read : Mem → Nat → Byte
  | [], a => resetByte a
  | (a', b) :: m, a => if a = a' then b else Memory.read m a

/-- Put `b` before the list `m` at address `a`, unless an unlisted address reads so anyway. -/
def Memory.entry (a : Nat) (b : Byte) (m : Mem) : Mem := if b = resetByte a then m else (a, b) :: m

/-- Write one byte, keeping the canonical form. -/
def Memory.write : Mem → Nat → Byte → Mem
  | [], a, b => Memory.entry a b []
  | (a', b') :: m, a, b =>
    if a < a' then Memory.entry a b ((a', b') :: m)
    else if a = a' then Memory.entry a b m
    else (a', b') :: Memory.write m a b

/-- Canonical from address `lo` up: addresses strictly rising from `lo` and below 4096, and no entry equal to what an
unlisted address reads as. -/
def Memory.wfFrom : Nat → Mem → Bool
  | _, [] => true
  | lo, (a, b) :: m => decide (lo ≤ a) && decide (a < 4096) && decide (b ≠ resetByte a) && Memory.wfFrom (a + 1) m

/-- The canonical form of memory: equal memories are equal lists. -/
def Memory.wf (m : Mem) : Bool := Memory.wfFrom 0 m

/-! ### Reading and writing the state -/

/-- `M[a]`, raw (00_scope R10). -/
def State.readByte (s : State) (a : Nat) : Byte := Memory.read s.mem a

/-- `M[a] <- b`, raw. -/
def State.writeByte (a : Nat) (b : Byte) (s : State) : State := { s with mem := Memory.write s.mem a b }

/-- `MemRead(addr, n)`: the bytes at `(addr + j) mod 4096`, j = 0 to n - 1 (20_memory R55). -/
def State.memRead (s : State) (addr : Nat) : Nat → List Byte
  | 0 => []
  | n + 1 => s.readByte (addr % 4096) :: s.memRead (addr + 1) n

/-- `MemWrite(addr, n, v)`: `M[(addr + j) mod 4096] <- v[j]` in ascending j (20_memory R56). -/
def State.memWrite (addr : Nat) : List Byte → State → State
  | [], s => s
  | b :: bs, s => State.memWrite (addr + 1) bs (s.writeByte (addr % 4096) b)

/-- `V[r]` (10_state R20). -/
def State.getV (s : State) (r : Reg) : Byte := s.v[r.val]

/-- `V[r] <- b` (10_state R20). -/
def State.setV (r : Reg) (b : Byte) (s : State) : State := { s with v := s.v.set r.val b }

/-- `I <- w`. -/
def State.setI (w : Word) (s : State) : State := { s with i := w }

/-- `PC <- w`. -/
def State.setPc (w : Word) (s : State) : State := { s with pc := w }

/-- `PC <- PC + 2`: the advance before dispatch (40_step_cycle R94) and the further advance of a taken skip
(42_skip R120). -/
def State.addPc2 (s : State) : State := s.setPc (s.pc + 2)

/-- `DT <- b`. -/
def State.setDT (b : Byte) (s : State) : State := { s with dt := b }

/-- `ST <- b`. -/
def State.setST (b : Byte) (s : State) : State := { s with st := b }

/-- Write the framebuffer and set the draw flag: CLS and DRW do both, unconditionally (10_state R37). -/
def State.display (fb : Screen) (s : State) : State := { s with fb := fb, df := true }

/-- `K <- keys`, all 16 bits at once (47_host_operations R193). -/
def State.setK (keys : Keys) (s : State) : State := { s with k := keys }

/-- `DF <- 0` (47_host_operations R196). -/
def State.clearDF (s : State) : State := { s with df := false }

/-- `AK <- a`. -/
def State.setAK (a : Option Reg) (s : State) : State := { s with ak := a }

/-- `KL <- K` (46_timer_key R178, R180). -/
def State.latchKeys (s : State) : State := { s with kl := s.k }

/-- Count one sample of the random input (log entry 2). -/
def State.countRnd (s : State) : State := { s with rndCount := s.rndCount + 1 }

/-! ### The stack (10_state R28, R29) -/

/-- `S[SP] <- w ; SP <- SP + 1`, or nothing at all when SP = 16 (41_flow R112). -/
def State.push (w : Word) (s : State) : Option State :=
  if h : s.sp.val < 16 then
    some { s with stack := s.stack.set s.sp.val w, sp := ⟨s.sp.val + 1, by omega⟩ }
  else none

/-- `SP <- SP - 1`, with the entry `S[SP]` at the new SP, or nothing at all when SP = 0. The entry stays in the array
(41_flow R111, 10_state R28). -/
def State.pop (s : State) : Option (Word × State) :=
  if h : s.sp.val = 0 then none
  else
    have hs := s.sp.isLt
    some (s.stack[s.sp.val - 1], { s with sp := ⟨s.sp.val - 1, by omega⟩ })

/-! ### Errors (60_exceptions) -/

/-- Report a status for this step. -/
def State.setStatus (e : Status) (s : State) : State := { s with status := e }

/-- `raise <Error>`: TAKING AN EXCEPTION on this hardware. The step ends here with that status; nothing is saved, no
register, stack entry or mode changes, control goes back to the host; what was written earlier in the step (at most
the PC advance) stays (60_exceptions R216, R219). -/
def State.raise (e : Status) (s : State) : State := s.setStatus e

/-- THE RETURN FROM AN EXCEPTION: nothing is restored, no record of the error is kept, and the next step is an
ordinary one from the state the failed step left (60_exceptions R220). A step begins with this. -/
def State.forgetError (s : State) : State := s.setStatus .ok

/-! ### The parts of a step (40_step_cycle) -/

/-- One timer: `if t > 0: t <- t - 1` (40_step_cycle R100). -/
def tickTimer (t : Byte) : Byte := if t.toNat > 0 then t - 1 else t

/-- `tick()` (40_step_cycle R100). -/
def State.tick (s : State) : State := (s.setDT (tickTimer s.dt)).setST (tickTimer s.st)

/-- The fetch: `none` when PC + 1 ≥ 4096 (computed without wrap), else `M[PC] ++ M[PC + 1]` (40_step_cycle R93). -/
def State.fetch (s : State) : Option Word :=
  if s.pc.toNat + 1 ≥ 4096 then none
  else some (wordOfBytes (s.readByte s.pc.toNat) (s.readByte (s.pc.toNat + 1)))

/-- The end of a fetching step: after an instruction that raised no error the timers tick; after an error they do not
(40_step_cycle R90 lines 7 to 9, 60_exceptions R216). -/
def State.finish (s : State) : State := if s.status = .ok then s.tick else s

/-- Place an instruction word where the next step fetches it: the key wait, if any, is ended, PC goes to 0x200 if no
word can be fetched at it, and the two bytes are stored there (log entry 18). -/
def State.placeWord (op : Word) (s : State) : State :=
  let t := if s.pc.toNat + 1 ≥ 4096 then s.setPc 0x200 else s
  State.memWrite t.pc.toNat (bytesOfWord op) (t.setAK none)

end Sys2Proof.Machine
end

