-- ==== Sys2Proof/Machine/Flags.lean ====
section
/-! DEFINITION. Flag computations: the six values VF receives (10_state R21) and the order in which a result and its
flag are written (43_load_alu R143). -/

namespace Sys2Proof.Machine

/-- The number of VF (10_state R21). -/
def regVF : Reg := 15

/-- A flag as the byte written to VF: 1 or 0. -/
def flagByte (b : Bool) : Byte := if b then 1 else 0

/-- The carry out of bit 7: the sum exceeds 255 (43_load_alu R138). -/
def carryOut (a b : Byte) : Bool := a.toNat + b.toNat > 255

/-- NOT borrow of `a - b`: `a ≥ b` (43_load_alu R139, R141). -/
def notBorrow (a b : Byte) : Bool := a.toNat ≥ b.toNat

/-- The bit a right shift by one moves out: `a[0]` (43_load_alu R140). -/
def shiftedOutRight (a : Byte) : Bool := a.getLsbD 0

/-- The bit a left shift by one moves out: `a[7]` (43_load_alu R142). -/
def shiftedOutLeft (a : Byte) : Bool := a.getLsbD 7

/-- `V[15] <- flag`. -/
def State.setFlag (f : Bool) (s : State) : State := s.setV regVF (flagByte f)

/-- `V[x] <- r`, then `V[15] <- flag`: the flag is written last, so with x = 15 it wins (43_load_alu R143). -/
def State.setResultThenFlag (x : Reg) (r : Byte) (f : Bool) (s : State) : State := (s.setV x r).setFlag f

end Sys2Proof.Machine
end

