-- ==== Sys2Proof/Machine/Operands.lean ====
section
/-! DEFINITION. Operand forms: the values an instruction reads (30_encoding R73, 44_index_memory R154). -/

namespace Sys2Proof.Machine

/-- `zext_16(nnn)` (30_encoding R73). -/
def zextAddr (nnn : Addr) : Word := nnn.setWidth 16

/-- The effective address of byte j: `(I + j) mod 4096` (44_index_memory R154). -/
def State.effAddr (s : State) (j : Nat) : Nat := (s.i.toNat + j) % 4096

/-- `V[x][3:0]`: the key a register names (42_skip R127) and the digit a register names (44_index_memory R152). -/
def State.lowNibble (s : State) (x : Reg) : Fin 16 := Fin.ofNat 16 (s.getV x).toNat

/-- `K[k] = 1` for the key that `V[x]` names (42_skip R125, R126). -/
def State.keyDown (s : State) (x : Reg) : Bool := s.k.getLsbD (s.lowNibble x).val

/-- The address of the glyph of digit d: `FONT_BASE + 5·d` (44_index_memory R152). -/
def glyphAddr (d : Fin 16) : Word := BitVec.ofNat 16 (Config.fontBase + Config.glyphBytes * d.val)

/-- The target of `JP V0,addr`: `zext_16(nnn) + zext_16(V[0])`, not reduced (41_flow R113). -/
def State.v0Target (s : State) (nnn : Addr) : Word := zextAddr nnn + (s.getV 0).setWidth 16

/-- `[V[0], ..., V[x]]`, the registers `LD [I],Vx` stores (44_index_memory R155). -/
def State.regsUpTo (s : State) (x : Reg) : List Byte := s.v.toList.take (x.val + 1)

/-- The three decimal digits of a byte, hundreds first (44_index_memory R153; log entry 6). -/
def decimalDigits (v : Byte) : List Byte :=
  [BitVec.ofNat 8 (v.toNat / 100), BitVec.ofNat 8 (v.toNat / 10 % 10), BitVec.ofNat 8 (v.toNat % 10)]

end Sys2Proof.Machine
end

