-- ==== Sys2Proof/Machine/Display.lean ====
section
/-! DEFINITION. The display instructions (45_display), written as the loops of R167. -/

namespace Sys2Proof.Machine

/-- `FB[xx][yy]` (10_state R36). -/
def pixelOf (fb : Screen) (xx : Fin 64) (yy : Fin 32) : Bool := (fb[yy.val]).getLsbD xx.val

/-- `FB[xx][yy] <- FB[xx][yy] ^ 1`. -/
def flipPixel (fb : Screen) (xx : Fin 64) (yy : Fin 32) : Screen :=
  fb.set yy.val (fb[yy.val] ^^^ BitVec.twoPow 64 xx.val)

/-- The all-zero framebuffer (R166). -/
def blankScreen : Screen := Vector.replicate 32 0

/-- One sprite bit that is 1, at (xx, yy): note a collision if the pixel is lit, then invert it (R167). -/
def drawPixel (xx : Fin 64) (yy : Fin 32) (p : Screen × Bool) : Screen × Bool :=
  (flipPixel p.1 xx yy, p.2 || pixelOf p.1 xx yy)

/-- One sprite row: the byte `b` from column `x0` in row `yy`; column offset c is bit 7 - c (R165), and every column
is reduced mod 64 (R167; log entries 7 and 10). -/
def drawRow (b : Byte) (x0 : Nat) (yy : Fin 32) (p : Screen × Bool) : Screen × Bool :=
  (List.range 8).foldl
    (fun q c => if b.getLsbD (7 - c) then drawPixel (Fin.ofNat 64 (x0 + c)) yy q else q) p

/-- The first n rows of the sprite at I, its top-left pixel at (x0, y0): the picture afterwards and whether a lit
pixel was turned off (R167). -/
def drawSprite (s : State) (x0 y0 n : Nat) : Screen × Bool :=
  (List.range n).foldl
    (fun q r => drawRow (s.readByte (s.effAddr r)) x0 (Fin.ofNat 32 (y0 + r)) q) (s.fb, false)

/-- `CLS` (R166): every pixel 0, DF set. -/
def execCls (s : State) : Result := .next (s.display blankScreen)

/-- `DRW Vx,Vy,nibble` (R167): VF = collision, DF set; the coordinates are read before VF is written. -/
def execDrwVxVyNibble (x y : Reg) (n : Nat) (s : State) : Result :=
  let drawn := drawSprite s (s.getV x).toNat (s.getV y).toNat n
  .next ((s.display drawn.1).setFlag drawn.2)

end Sys2Proof.Machine
end

