-- ==== Sys2Proof/Machine/Flow.lean ====
section
/-! DEFINITION. Control transfer (41_flow). PC in the state given is already the address of the instruction plus 2
(40_step_cycle R94). -/

namespace Sys2Proof.Machine

/-- `JP addr` (R110). -/
def execJpAddr (nnn : Addr) (s : State) : Result := .next (s.setPc (zextAddr nnn))

/-- `RET` (R111): StackUnderflow when SP = 0, with nothing written. -/
def execRet (s : State) : Result :=
  match s.pop with
  | none => .next (s.raise .stackUnderflow)
  | some (w, t) => .next (t.setPc w)

/-- `CALL addr` (R112): StackOverflow when SP = 16, with nothing written. -/
def execCallAddr (nnn : Addr) (s : State) : Result :=
  match s.push s.pc with
  | none => .next (s.raise .stackOverflow)
  | some t => .next (t.setPc (zextAddr nnn))

/-- `JP V0,addr` (R113). -/
def execJpV0Addr (nnn : Addr) (s : State) : Result := .next (s.setPc (s.v0Target nnn))

end Sys2Proof.Machine
end

