-- ==== Sys2Proof/Machine/IndexMemory.lean ====
section
/-! DEFINITION. The index register and the memory instructions (44_index_memory). None changes VF as a flag, and the
memory instructions leave I alone (R154). -/

namespace Sys2Proof.Machine

/-- `LD I,addr` (R150). -/
def execLdIAddr (nnn : Addr) (s : State) : Result := .next (s.setI (zextAddr nnn))

/-- `ADD I,Vx` (R151): `(I + V[x]) mod 4096`. -/
def execAddIVx (x : Reg) (s : State) : Result :=
  .next (s.setI (BitVec.ofNat 16 ((s.i.toNat + (s.getV x).toNat) % 4096)))

/-- `LD F,Vx` (R152): the glyph address of the digit in the low nibble. -/
def execLdFVx (x : Reg) (s : State) : Result := .next (s.setI (glyphAddr (s.lowNibble x)))

/-- `LD B,Vx` (R153): the three digits at I, I + 1, I + 2. -/
def execLdBVx (x : Reg) (s : State) : Result := .next (State.memWrite s.i.toNat (decimalDigits (s.getV x)) s)

/-- `LD [I],Vx` (R155): V0 to Vx at I, I + 1, ... -/
def execLdMemVx (x : Reg) (s : State) : Result := .next (State.memWrite s.i.toNat (s.regsUpTo x) s)

/-- Write the bytes to the registers from number j up, in ascending order; bytes past V15 go nowhere (there are at
most 16 of them). -/
def State.loadRegs : Nat → List Byte → State → State
  | _, [], s => s
  | j, b :: bs, s => if h : j < 16 then State.loadRegs (j + 1) bs (s.setV ⟨j, h⟩ b) else s

/-- `LD Vx,[I]` (R156): V0 to Vx from I, I + 1, ... -/
def execLdVxMem (x : Reg) (s : State) : Result := .next (State.loadRegs 0 (s.memRead s.i.toNat (x.val + 1)) s)

end Sys2Proof.Machine
end

