-- ==== Sys2Proof/Machine/LoadAlu.lean ====
section
/-! DEFINITION. Register loads, arithmetic and logic, random (43_load_alu). Operands are read before anything is
written (R132): each meaning reads from the state it is given. -/

namespace Sys2Proof.Machine

/-- `LD Vx,byte` (R130). -/
def execLdVxByte (x : Reg) (kk : Byte) (s : State) : Result := .next (s.setV x kk)

/-- `ADD Vx,byte` (R131): modulo 256, VF is not a flag here. -/
def execAddVxByte (x : Reg) (kk : Byte) (s : State) : Result := .next (s.setV x (s.getV x + kk))

/-- `LD Vx,Vy` (R134). -/
def execLdVxVy (x y : Reg) (s : State) : Result := .next (s.setV x (s.getV y))

/-- `OR Vx,Vy` (R135). -/
def execOrVxVy (x y : Reg) (s : State) : Result := .next (s.setV x (s.getV x ||| s.getV y))

/-- `AND Vx,Vy` (R136). -/
def execAndVxVy (x y : Reg) (s : State) : Result := .next (s.setV x (s.getV x &&& s.getV y))

/-- `XOR Vx,Vy` (R137). -/
def execXorVxVy (x y : Reg) (s : State) : Result := .next (s.setV x (s.getV x ^^^ s.getV y))

/-- `ADD Vx,Vy` (R138): VF = carry. -/
def execAddVxVy (x y : Reg) (s : State) : Result :=
  .next (s.setResultThenFlag x (s.getV x + s.getV y) (carryOut (s.getV x) (s.getV y)))

/-- `SUB Vx,Vy` (R139): VF = NOT borrow. -/
def execSubVxVy (x y : Reg) (s : State) : Result :=
  .next (s.setResultThenFlag x (s.getV x - s.getV y) (notBorrow (s.getV x) (s.getV y)))

/-- `SHR Vx` (R140): `V[x]` in place, VF = the bit shifted out; the register y names is not used. -/
def execShrVx (x _y : Reg) (s : State) : Result :=
  .next (s.setResultThenFlag x (s.getV x >>> 1) (shiftedOutRight (s.getV x)))

/-- `SUBN Vx,Vy` (R141): Vx = Vy - Vx, VF = NOT borrow. -/
def execSubnVxVy (x y : Reg) (s : State) : Result :=
  .next (s.setResultThenFlag x (s.getV y - s.getV x) (notBorrow (s.getV y) (s.getV x)))

/-- `SHL Vx` (R142): `V[x]` in place, VF = the bit shifted out; the register y names is not used. -/
def execShlVx (x _y : Reg) (s : State) : Result :=
  .next (s.setResultThenFlag x (s.getV x <<< 1) (shiftedOutLeft (s.getV x)))

/-- `RND Vx,byte` with the step's random input given (R144). -/
def rndWith (rnd : Byte) (x : Reg) (kk : Byte) (s : State) : State := s.setV x (rnd &&& kk)

/-- `RND Vx,byte` (R144): the random input is the next sample of the free value `Config.rnd` (log entry 2). -/
def execRndVxByte (x : Reg) (kk : Byte) (s : State) : Result :=
  .next (rndWith (Config.rnd s.rndCount) x kk s).countRnd

end Sys2Proof.Machine
end

