-- ==== Sys2Proof/Machine/Skip.lean ====
section
/-! DEFINITION. Conditional skips (42_skip). -/

namespace Sys2Proof.Machine

/-- A skip whose condition is `c`: a further `PC <- PC + 2` when it holds, nothing else (R120). -/
def skipIf (c : Bool) (s : State) : State := if c then s.addPc2 else s

/-- `SE Vx,byte` (R121). -/
def execSeVxByte (x : Reg) (kk : Byte) (s : State) : Result := .next (skipIf (s.getV x == kk) s)

/-- `SNE Vx,byte` (R122). -/
def execSneVxByte (x : Reg) (kk : Byte) (s : State) : Result := .next (skipIf (s.getV x != kk) s)

/-- `SE Vx,Vy` (R123). -/
def execSeVxVy (x y : Reg) (s : State) : Result := .next (skipIf (s.getV x == s.getV y) s)

/-- `SNE Vx,Vy` (R124). -/
def execSneVxVy (x y : Reg) (s : State) : Result := .next (skipIf (s.getV x != s.getV y) s)

/-- `SKP Vx` (R125). -/
def execSkpVx (x : Reg) (s : State) : Result := .next (skipIf (s.keyDown x) s)

/-- `SKNP Vx` (R126). -/
def execSknpVx (x : Reg) (s : State) : Result := .next (skipIf (!s.keyDown x) s)

end Sys2Proof.Machine
end

