-- ==== Sys2Proof/Machine/TimerKey.lean ====
section
/-! DEFINITION. Timer and key-wait instructions, and the waiting step (46_timer_key). -/

namespace Sys2Proof.Machine

/-- `LD Vx,DT` (R175). -/
def execLdVxDT (x : Reg) (s : State) : Result := .next (s.setV x s.dt)

/-- `LD DT,Vx` (R176). -/
def execLdDTVx (x : Reg) (s : State) : Result := .next (s.setDT (s.getV x))

/-- `LD ST,Vx` (R177). -/
def execLdSTVx (x : Reg) (s : State) : Result := .next (s.setST (s.getV x))

/-- `LD Vx,K`, the step that fetches it (R178): the wait begins, this step's snapshot is the baseline. -/
def execLdVxK (x : Reg) (s : State) : Result := .next (s.setAK (some x)).latchKeys

/-- `newly(K, KL) = K & ~KL` (R179). -/
def State.newKeys (s : State) : Keys := s.k &&& ~~~s.kl

/-- `pick`: the lowest-numbered key of the set, the value `KEY_PICK` has here; `none` for the empty set (R179; log
entry 9). -/
def pickKey (new : Keys) : Option Key := (List.finRange 16).find? fun key => new.getLsbD key.val

/-- `waiting_step()` for a wait whose target is register r (R180). -/
def State.waitingStep (r : Reg) (s : State) : State :=
  match pickKey s.newKeys with
  | some key => ((s.setV r (BitVec.ofNat 8 key.val)).setAK none).latchKeys
  | none => s.latchKeys

end Sys2Proof.Machine
end

