-- ==== Sys2Proof/Machine/Cycle.lean ====
section
/-! DEFINITION. The step of 40_step_cycle R90, line by line. -/

namespace Sys2Proof.Machine

/-- The end of a fetching step, for each answer of the instruction: a next state ticks unless an error was raised. -/
def finishResult : Result → Result
  | .next t => .next t.finish
  | .fault r => .fault r
  | .refused r => .refused r

/-- A step that waits for a key (R90 line 1, R91): the poll, then the tick; status OK. -/
def waitCycle (r : Reg) (s : State) : State := (State.waitingStep r s.forgetError).tick

/-- Decode and execute the word fetched (R90 lines 4 to 9): PC advances before anything else; an unrecognized word
ends the step there. -/
def runWord (op : Word) (s : State) : Result :=
  let advanced := s.forgetError.addPc2
  match decodeWord op with
  | none => .next (advanced.raise (.unknownOpcode op))
  | some i => finishResult (exec i advanced)

/-- One step (R90). A failed fetch changes nothing (R93). -/
def cycle (s : State) : Result :=
  match s.ak with
  | some r => .next (waitCycle r s)
  | none =>
    match s.fetch with
    | none => .next (s.raise .fetchOutOfBounds)
    | some op => runWord op s

end Sys2Proof.Machine
end

