-- ==== Sys2Proof/Machine/Step.lean ====
section
/-! DEFINITION. The step the host calls, and how an instruction is placed for it to fetch. -/

namespace Sys2Proof.Machine

/-- The only transition the core makes on its own state (40_step_cycle R90). -/
def step (s : State) : Host.Outcome State Fault Refusal := cycle s

/-- The state with the instruction whose bits are `w` (numbered as spec/opcode_table.json numbers them, cut to `nbits`)
stored where the next step fetches it (log entry 18). -/
def State.withFetchWord (s : State) (nbits w : Nat) : State := s.placeWord (BitVec.ofNat 16 (w % 2 ^ nbits))

end Sys2Proof.Machine
end

