-- ==== Sys2Proof/Machine/HostOps.lean ====
section
/-! DEFINITION. The host operations other than `step` (47_host_operations): each is one atomic transition between two
steps (R192). The list is complete: the host has no other access. -/

namespace Sys2Proof.Machine

/-- What the host can ask for (47_host_operations R190 to R197). -/
inductive HostOp where
  | reset
  | loadProgram (bytes : List Byte)
  | setKeypad (keys : Keys)
  | readFramebuffer
  | readDrawFlag
  | clearDrawFlag
  | readSoundTimer
  deriving DecidableEq, Repr

/-- What the host gets back. -/
inductive HostReply where
  /-- No result. -/
  | done
  /-- `load_program`: OK or ProgramTooLarge (R191). -/
  | loadStatus (st : Status)
  /-- A copy of the framebuffer (R194). -/
  | framebuffer (fb : Screen)
  /-- The draw flag (R195). -/
  | drawFlag (df : Bool)
  /-- The sound timer and `sound_active` (R197). -/
  | sound (st : Byte) (active : Bool)
  deriving DecidableEq, Repr

/-- `reset()` (R190): every piece of state at its reset value. The count of random samples is the model's own and goes
on, so that the random input after a reset is as free as before it (log entry 2). -/
def hostReset (s : State) : State := { State.reset with rndCount := s.rndCount }

/-- `load_program(bytes)` (R191): ProgramTooLarge and nothing written above 3584 bytes, else the bytes from 0x200 up. -/
def loadProgram (bytes : List Byte) (s : State) : State × Status :=
  if bytes.length > Config.progMax then (s, .programTooLarge)
  else (State.memWrite Config.progBase bytes s, .ok)

/-- `sound_active = (ST > 0)` (10_state R33). -/
def State.soundActive (s : State) : Bool := s.st.toNat > 0

/-- One host operation: the state after it and its result. -/
def hostOp (op : HostOp) (s : State) : State × HostReply :=
  match op with
  | .reset => (hostReset s, .done)
  | .loadProgram bytes => ((loadProgram bytes s).1, .loadStatus (loadProgram bytes s).2)
  | .setKeypad keys => (s.setK keys, .done)
  | .readFramebuffer => (s, .framebuffer s.fb)
  | .readDrawFlag => (s, .drawFlag s.df)
  | .clearDrawFlag => (s.clearDF, .done)
  | .readSoundTimer => (s, .sound s.st s.soundActive)

end Sys2Proof.Machine
end

