-- ==== Sys2Proof/Safety.lean ====
section
/-! DEFINITION. The terms claims are stated in: the parts of the state one by one, the invariant of the machine, who
writes what, and what a sprite covers. -/

namespace Sys2Proof.Machine

/-- One piece of the state (10_state R45's list, piece by piece, with the model's own two fields). -/
inductive Part where
  | v (r : Reg)
  | i
  | pc
  | sp
  | stack (j : Fin 16)
  | dt
  | st
  | mem (a : Fin 4096)
  | pixel (xx : Fin 64) (yy : Fin 32)
  | df
  | k
  | ak
  | kl
  | status
  | rndCount
  deriving DecidableEq, Repr

/-- AK as a number: 0 for none, r + 1 for a wait for register r. -/
def akNumber : Option Reg → Nat
  | none => 0
  | some r => r.val + 1

/-- A status as a number, the word of UnknownOpcode included. -/
def Status.number : Status → Nat
  | .unknownOpcode op => 6 + op.toNat
  | .ok => 0
  | .fetchOutOfBounds => 1
  | .stackOverflow => 2
  | .stackUnderflow => 3
  | .programTooLarge => 5

/-- What one piece of the state holds, as a number. Memory is read by the model's read of one byte. -/
def State.look (s : State) : Part → Nat
  | .v r => (s.getV r).toNat
  | .i => s.i.toNat
  | .pc => s.pc.toNat
  | .sp => s.sp.val
  | .stack j => (s.stack[j.val]).toNat
  | .dt => s.dt.toNat
  | .st => s.st.toNat
  | .mem a => (s.readByte a.val).toNat
  | .pixel xx yy => (pixelOf s.fb xx yy).toNat
  | .df => s.df.toNat
  | .k => s.k.toNat
  | .ak => akNumber s.ak
  | .kl => s.kl.toNat
  | .status => s.status.number
  | .rndCount => s.rndCount

/-- The invariant of the machine. -/
structure Inv (s : State) : Prop where
  /-- Memory is in canonical form. -/
  memCanonical : Memory.wf s.mem = true
  /-- `I[15:12] = 0` (10_state R24). -/
  indexInRange : s.i.toNat < 4096
  /-- PC never holds more than 0x10FE (10_state R26). -/
  pcInRange : s.pc.toNat ≤ 0x10FE
  /-- A stack entry is 0 or what some CALL pushed, at most 4096 (41_flow R111). -/
  stackInRange : ∀ j : Fin 16, (s.stack[j.val]).toNat ≤ 4096

/-- The last step reported no error (60_exceptions R211). A safe run is one whose states all satisfy this. -/
def State.noError (s : State) : Bool := s.status = .ok

/-- The next step fetches the word `op`: no key wait is in progress and PC + 1 is in bounds (40_step_cycle R91, R93). -/
def State.fetches (s : State) (op : Word) : Prop :=
  s.ak = none ∧ s.pc.toNat + 1 < 4096 ∧ op.toNat = (s.readByte s.pc.toNat).toNat * 256 + (s.readByte (s.pc.toNat + 1)).toNat

/-- The sprite of n rows at I, drawn with its top-left pixel at (x0, y0), has a 1 bit at the pixel (xx, yy): row r and
column offset c with bit 7 - c of the byte at (I + r) mod 4096 set, and xx, yy the coordinates reduced mod 64 and 32
(45_display R165, R167). -/
def State.spriteHits (s : State) (x0 y0 n : Nat) (xx : Fin 64) (yy : Fin 32) : Prop :=
  ∃ r c, r < n ∧ c < 8 ∧ (s.readByte ((s.i.toNat + r) % 4096)).getLsbD (7 - c) = true ∧
    xx.val = (x0 + c) % 64 ∧ yy.val = (y0 + r) % 32

/-- What an instruction may write when it runs from `s` (10_state R45, the column "written by the core in"). A store
reaches only the bytes at `effAddr` 0 to 2 (Fx33, 44_index_memory R153) or 0 to x (Fx55, R155), CALL only the stack
entry at SP (41_flow R112), DRW only the pixels the sprite hits (45_display R167). At depth 16 CALL, and at depth 0 RET,
writes the error status alone; that status and the sample count of RND are the model's own fields. -/
def MayWrite (i : Instr) (s : State) (p : Part) : Prop :=
  match i with
  | .ldVxByte x _ | .addVxByte x _ | .ldVxVy x _ | .orVxVy x _ | .andVxVy x _ | .xorVxVy x _ | .ldVxDT x => p = .v x
  | .addVxVy x _ | .subVxVy x _ | .shrVx x _ | .subnVxVy x _ | .shlVx x _ => p = .v x ∨ p = .v 15
  | .rndVxByte x _ => p = .v x ∨ p = .rndCount
  | .ldVxMem x => ∃ j : Reg, j ≤ x ∧ p = .v j
  | .ldIAddr _ | .addIVx _ | .ldFVx _ => p = .i
  | .jpAddr _ | .jpV0Addr _ | .seVxByte _ _ | .sneVxByte _ _ | .seVxVy _ _ | .sneVxVy _ _ | .skpVx _ | .sknpVx _ =>
    p = .pc
  | .callAddr _ =>
    if s.sp.val = 16 then p = .status
    else p = .pc ∨ p = .sp ∨ ∃ j : Fin 16, j.val = s.sp.val ∧ p = .stack j
  | .ret => if s.sp.val = 0 then p = .status else p = .pc ∨ p = .sp
  | .ldDTVx _ => p = .dt
  | .ldSTVx _ => p = .st
  | .ldBVx _ => ∃ (a : Fin 4096) (j : Nat), j < 3 ∧ a.val = s.effAddr j ∧ p = .mem a
  | .ldMemVx x => ∃ (a : Fin 4096) (j : Nat), j ≤ x.val ∧ a.val = s.effAddr j ∧ p = .mem a
  | .cls => p = .df ∨ ∃ xx yy, p = .pixel xx yy
  | .drwVxVyNibble x y n =>
    p = .v 15 ∨ p = .df ∨ ∃ xx yy, s.spriteHits (s.look (.v x)) (s.look (.v y)) n xx yy ∧ p = .pixel xx yy
  | .ldVxK _ => p = .ak ∨ p = .kl

end Sys2Proof.Machine
end

