-- ==== Sys2Proof/Certificates/Slice0/Obligations.lean ====
section
/-! DEFINITION. The statements for the provers. Parts of the state are read with `State.look` (Safety.lean), so a frame
is "every part but these looks as before": all registers, the stack, the timers, every byte of memory, every pixel, the
flags, the key state and the model's own fields. A statement about `exec` is about the instruction's own effect on the
state after the fetch and the PC advance (40_step_cycle R96); the step around it is StepRunsTheDecodedInstruction. -/

open Sys2Proof Sys2Proof.Machine

/-! ### Encoding (30_encoding) -/

/-- Words written out from the patterns of 30_encoding R75, one or more of each format, and words outside the table
(R82). A sanity statement. -/
def Obligations.SampleWordsDecode : Prop :=
  decodeWord 0x00E0 = some .cls ∧ decodeWord 0x00EE = some .ret ∧ decodeWord 0x1228 = some (.jpAddr 0x228) ∧
  decodeWord 0x2ABC = some (.callAddr 0xABC) ∧ decodeWord 0x4211 = some (.sneVxByte 2 0x11) ∧
  decodeWord 0x5340 = some (.seVxVy 3 4) ∧ decodeWord 0x6A2F = some (.ldVxByte 0xA 0x2F) ∧
  decodeWord 0x8125 = some (.subVxVy 1 2) ∧ decodeWord 0x8127 = some (.subnVxVy 1 2) ∧
  decodeWord 0x812E = some (.shlVx 1 2) ∧ decodeWord 0xDBC5 = some (.drwVxVyNibble 0xB 0xC 5) ∧
  decodeWord 0xE59E = some (.skpVx 5) ∧ decodeWord 0xF30A = some (.ldVxK 3) ∧ decodeWord 0xF265 = some (.ldVxMem 2) ∧
  decodeWord 0x5FFF = none ∧ decodeWord 0x0123 = none ∧ decodeWord 0x8128 = none ∧ decodeWord 0xF166 = none

/-- Every well-formed instruction is decoded from its own word, and from its two bytes whatever bytes follow
(30_encoding R70 to R75; the numbering of family 8 is the spec's R76, log entry 8). -/
def Obligations.DecodeOfEncode : Prop :=
  ∀ i : Instr, WellFormed i = true →
    decodeWord (encode i) = some i ∧ ∀ rest, decodeBytes (encodeBytes i ++ rest) = .instr i rest

/-- A word that decodes is the word of the instruction it decodes to, which is well-formed: no bit is ignored
(30_encoding R84), so two words never share a meaning. -/
def Obligations.EncodeOfDecode : Prop :=
  ∀ (op : Word) (i : Instr), decodeWord op = some i → WellFormed i = true ∧ encode i = op

/-- "A word `op` is this instruction exactly when `op & mask = match`" (30_encoding R75), row by row: a word is in the
row of the instruction it decodes to, and a word in the row of an instruction decodes to an instruction of that row. -/
def Obligations.OpcodeRowsDecideDecoding : Prop :=
  (∀ (op : Word) (i : Instr), decodeWord op = some i → op &&& (opcodeRow i).1 = (opcodeRow i).2) ∧
  (∀ (op : Word) (j : Instr), op &&& (opcodeRow j).1 = (opcodeRow j).2 →
    ∃ i, decodeWord op = some i ∧ opcodeRow i = opcodeRow j)

/-- The list of unrecognized words of 30_encoding R82, family by family, is exactly what the decoder rejects. -/
def Obligations.UnrecognizedWordsAreTheListed : Prop :=
  ∀ op : Word, decodeWord op = none ↔
    (op.toNat / 4096 = 0x0 ∧ op.toNat ≠ 0x00E0 ∧ op.toNat ≠ 0x00EE) ∨
    (op.toNat / 4096 = 0x5 ∧ op.toNat % 16 ≠ 0) ∨
    (op.toNat / 4096 = 0x8 ∧ op.toNat % 16 ∈ [0x8, 0x9, 0xA, 0xB, 0xC, 0xD, 0xF]) ∨
    (op.toNat / 4096 = 0x9 ∧ op.toNat % 16 ≠ 0) ∨
    (op.toNat / 4096 = 0xE ∧ op.toNat % 256 ∉ [0x9E, 0xA1]) ∨
    (op.toNat / 4096 = 0xF ∧ op.toNat % 256 ∉ [0x07, 0x0A, 0x15, 0x18, 0x1E, 0x29, 0x33, 0x55, 0x65])

/-! ### The step (40_step_cycle, 60_exceptions) -/

/-- When the word at PC decodes to an instruction, it is well-formed and the step is that instruction's meaning at the
state with PC advanced by 2 and no error recorded, followed by the timer tick unless the instruction raised an error
(40_step_cycle R90, R94, R96). The status field is the model's own (log entry 1). -/
def Obligations.StepRunsTheDecodedInstruction : Prop :=
  ∀ (s : State) (op : Word) (i : Instr), s.fetches op → decodeWord op = some i →
    WellFormed i = true ∧
    ∃ a : State, a.pc = s.pc + 2 ∧ a.status = .ok ∧ (∀ p, p ≠ .pc → p ≠ .status → a.look p = s.look p) ∧
      step s = (match exec i a with
        | .next t => .next (if t.status = .ok then t.tick else t)
        | .fault r => .fault r
        | .refused r => .refused r)

/-- The tick decrements each nonzero timer by one and touches nothing else (40_step_cycle R100). -/
def Obligations.TickDecrementsNonzeroTimers : Prop :=
  ∀ s : State, s.tick.look .dt = s.look .dt - 1 ∧ s.tick.look .st = s.look .st - 1 ∧
    ∀ p, p ≠ .dt → p ≠ .st → s.tick.look p = s.look p

/-- A fetch out of bounds changes nothing (the status output aside) and repeats the same way for ever
(40_step_cycle R93 with the spec's decision D3, log entry 11). -/
def Obligations.FetchOutOfBoundsChangesNothing : Prop :=
  ∀ s : State, s.ak = none → 4096 ≤ s.pc.toNat + 1 →
    ∃ t, step s = .next t ∧ t.status = .fetchOutOfBounds ∧ (∀ p, p ≠ .status → t.look p = s.look p) ∧
      step t = .next t

/-- A word that decodes to UNKNOWN ends the step with its status, carrying the word; PC has been advanced by 2 and
nothing else changed, the timers included; the next step fetches the following word (40_step_cycle R97). -/
def Obligations.UnknownOpcodeLeavesAllButPc : Prop :=
  ∀ (s : State) (op : Word), s.fetches op → decodeWord op = none →
    ∃ t, step s = .next t ∧ t.status = .unknownOpcode op ∧ t.pc = s.pc + 2 ∧
      (∀ p, p ≠ .pc → p ≠ .status → t.look p = s.look p) ∧
      ∀ op' : Word, t.fetches op' ↔ t.pc.toNat + 1 < 4096 ∧
        op'.toNat = (s.readByte t.pc.toNat).toNat * 256 + (s.readByte (t.pc.toNat + 1)).toNat

/-- The waiting step (46_timer_key R180; 40_step_cycle R91): with a newly pressed key, pressed now and not at the
previous step, the lowest such key's number goes to the target register and the wait ends; with none, the wait goes
on; either way KL takes K, the timers tick, PC stays and nothing else changes. The baseline, the choice of the lowest
and the tick are the spec's decisions D12, D13 and D14 (log entry 9). -/
def Obligations.WaitingStepPollsTheKeys : Prop :=
  ∀ (s : State) (r : Reg), s.ak = some r →
    ∃ t, step s = .next t ∧ t.status = .ok ∧ t.kl = s.k ∧
      t.look .dt = s.look .dt - 1 ∧ t.look .st = s.look .st - 1 ∧
      ((∀ key : Key, s.k.getLsbD key.val = true → s.kl.getLsbD key.val = true) →
        t.ak = some r ∧ t.look (.v r) = s.look (.v r)) ∧
      (∀ key : Key, s.k.getLsbD key.val = true → s.kl.getLsbD key.val = false →
        (∀ j : Key, j < key → s.k.getLsbD j.val = true → s.kl.getLsbD j.val = true) →
        t.ak = none ∧ t.look (.v r) = key.val) ∧
      ∀ p, p ≠ .v r → p ≠ .ak → p ≠ .kl → p ≠ .dt → p ≠ .st → p ≠ .status → t.look p = s.look p

/-- `step` is total: from every state it answers a next state (40_step_cycle R102). -/
def Obligations.StepIsTotal : Prop := ∀ s : State, ∃ t, step s = .next t

/-- The errors, complete: which word and which condition raises each (60_exceptions R212), and what the failed step
left (R214 with the spec's decision D3, log entry 11). -/
def Obligations.FailedStepChangesOnlyPc : Prop :=
  ∀ s t : State, step s = .next t → t.status ≠ .ok →
    s.ak = none ∧ (∀ p, p ≠ .pc → p ≠ .status → t.look p = s.look p) ∧
    ((t.status = .fetchOutOfBounds ∧ 4096 ≤ s.pc.toNat + 1 ∧ t.pc = s.pc) ∨
     (t.pc = s.pc + 2 ∧ ∃ op, s.fetches op ∧
       ((t.status = .unknownOpcode op ∧ decodeWord op = none) ∨
        (t.status = .stackOverflow ∧ op.toNat / 4096 = 0x2 ∧ s.sp.val = 16) ∨
        (t.status = .stackUnderflow ∧ op.toNat = 0x00EE ∧ s.sp.val = 0))))

/-- No error is remembered: whatever status the last step left, the next step is the same (60_exceptions R220 with the
spec's decision D4, log entry 11). -/
def Obligations.NoErrorIsSticky : Prop := ∀ (s : State) (e : Status), step (s.setStatus e) = step s

/-! ### Whole-machine rules (10_state, 40_step_cycle) -/

/-- The writers of each piece of state, complete (10_state R45): an instruction leaves every part as it was but those
`MayWrite` lists for it in the state it runs from, where every stored address, the stack entry and the pixels are
computed as the meaning computes them. What CALL and RET write at their limits, the wrap of addresses and pixels and
the bit order are the spec's decisions D3, D6, D30 and D25 (log entries 11, 12, 10 and 7); the status and the sample
count are the model's own fields (log entries 1 and 2). -/
def Obligations.OnlyListedWritersWrite : Prop :=
  ∀ (i : Instr) (s t : State) (p : Part), exec i s = .next t → ¬ MayWrite i s p → t.look p = s.look p

/-- The parts are the whole state: two states with canonical memory that look alike in every part are equal, so a
frame over all parts misses nothing. -/
def Obligations.PartsDetermineTheState : Prop :=
  ∀ s t : State, Memory.wf s.mem = true → Memory.wf t.mem = true → (∀ p, s.look p = t.look p) → s = t

/-- What a step never does (40_step_cycle R102): it never clears the draw flag, never writes the keypad snapshot,
changes memory only when it fetched Fx33 or Fx55, and samples the random input only when it fetched Cxkk. -/
def Obligations.StepNeverDoes : Prop :=
  ∀ s t : State, step s = .next t →
    (s.df = true → t.df = true) ∧ t.k = s.k ∧
    (∀ a : Fin 4096, t.look (.mem a) ≠ s.look (.mem a) →
      ∃ op : Word, s.fetches op ∧ op.toNat / 4096 = 0xF ∧ (op.toNat % 256 = 0x33 ∨ op.toNat % 256 = 0x55)) ∧
    (t.rndCount ≠ s.rndCount → ∃ op : Word, s.fetches op ∧ op.toNat / 4096 = 0xC)

/-- Every step keeps the invariant: memory canonical, I below 4096 (10_state R24), PC at most 0x10FE (R26), stack
entries at most 4096 (41_flow R111). -/
def Obligations.StepKeepsTheInvariant : Prop := ∀ s t : State, Inv s → step s = .next t → Inv t

/-- The invariant holds after reset. -/
def Obligations.ResetMeetsTheInvariant : Prop := Inv State.reset

/-- Every host operation keeps the invariant (47_host_operations R190 to R197). -/
def Obligations.HostOperationsKeepTheInvariant : Prop := ∀ (s : State) (op : HostOp), Inv s → Inv (hostOp op s).1

/-! ### Reset and the host operations (10_state R43, 47_host_operations) -/

/-- What reset leaves (10_state R43): every register, timer, stack entry and pixel 0, PC = 0x200, no key wait, the
fontset's 80 bytes at 0x000 and zero in every byte above. Nothing is said of the model's own two fields. The reset of
DF, K, AK and KL is the spec's decision D17 (log entry 15), the fontset's bytes its D24 (log entry 5). -/
def Obligations.ResetLeavesTheListedValues : Prop :=
  (∀ p : Part, (∀ a, p ≠ .mem a) → p ≠ .status → p ≠ .rndCount →
    State.reset.look p = if p = .pc then 0x200 else 0) ∧
  fontset.length = 80 ∧
  (∀ (a : Fin 4096) (h : a.val < fontset.length), State.reset.look (.mem a) = (fontset[a.val]).toNat) ∧
  (∀ a : Fin 4096, 80 ≤ a.val → State.reset.look (.mem a) = 0)

/-- `reset()` gives the reset state from any state, in every part the spec gives the machine, so doing it twice is
doing it once (47_host_operations R190); only the model's own sample count goes on (log entry 2). -/
def Obligations.HostResetForgetsTheState : Prop :=
  ∀ s : State, (hostOp .reset s).2 = .done ∧ (hostOp .reset s).1.rndCount = s.rndCount ∧
    (∀ p, p ≠ .rndCount → (hostOp .reset s).1.look p = State.reset.look p) ∧
    hostOp .reset (hostOp .reset s).1 = hostOp .reset s

/-- `load_program` (47_host_operations R191): a program that fits is in memory byte for byte from 0x200 and nothing
else changes; one that does not changes nothing (the spec's decision D18, log entry 17). -/
def Obligations.LoadProgramCopiesTheImage : Prop :=
  ∀ (bytes : List Byte) (s : State), Memory.wf s.mem = true →
    (3584 < bytes.length → hostOp (.loadProgram bytes) s = (s, .loadStatus .programTooLarge)) ∧
    (bytes.length ≤ 3584 → ∃ t, hostOp (.loadProgram bytes) s = (t, .loadStatus .ok) ∧
      (∀ (j : Nat) (h : j < bytes.length), t.readByte (0x200 + j) = bytes[j]) ∧
      (∀ a : Fin 4096, (a.val < 0x200 ∨ 0x200 + bytes.length ≤ a.val) → t.look (.mem a) = s.look (.mem a)) ∧
      ∀ p, (∀ a, p ≠ .mem a) → t.look p = s.look p)

/-- The other host operations (47_host_operations R193 to R197): `set_keypad` writes K whole and nothing else,
`clear_draw_flag` clears DF and nothing else, the reads change nothing and answer what they read. -/
def Obligations.HostAccessorsReadAndWriteOnlyTheirs : Prop :=
  ∀ (s : State) (keys : Keys),
    ((hostOp (.setKeypad keys) s).1.k = keys ∧ ∀ p, p ≠ .k → (hostOp (.setKeypad keys) s).1.look p = s.look p) ∧
    ((hostOp .clearDrawFlag s).1.df = false ∧ ∀ p, p ≠ .df → (hostOp .clearDrawFlag s).1.look p = s.look p) ∧
    hostOp .readFramebuffer s = (s, .framebuffer s.fb) ∧ hostOp .readDrawFlag s = (s, .drawFlag s.df) ∧
    ∃ active : Bool, hostOp .readSoundTimer s = (s, .sound s.st active) ∧ (active = true ↔ 0 < s.look .st)

/-! ### Loads, arithmetic and logic (43_load_alu) -/

/-- `LD Vx,byte` (R130): encoding, result, and nothing else written, VF only as the destination. -/
def Obligations.LdVxByteLoadsTheByte : Prop :=
  ∀ (x : Reg) (kk : Byte) (s : State),
    decodeWord (BitVec.ofNat 16 (0x6000 + 0x100 * x.val + kk.toNat)) = some (.ldVxByte x kk) ∧
    ∃ t, exec (.ldVxByte x kk) s = .next t ∧ t.look (.v x) = kk.toNat ∧ ∀ p, p ≠ .v x → t.look p = s.look p

/-- `ADD Vx,byte` (R131): the sum modulo 256; no flag, by the spec's resolution C2 and decision D29 (log entry 13). -/
def Obligations.AddVxByteWrapsWithoutFlag : Prop :=
  ∀ (x : Reg) (kk : Byte) (s : State), ∃ t, exec (.addVxByte x kk) s = .next t ∧
    t.look (.v x) = (s.look (.v x) + kk.toNat) % 256 ∧ ∀ p, p ≠ .v x → t.look p = s.look p

/-- `LD Vx,Vy` (R134): result, and nothing else written. -/
def Obligations.LdVxVyCopiesTheRegister : Prop :=
  ∀ (x y : Reg) (s : State), ∃ t, exec (.ldVxVy x y) s = .next t ∧
    t.look (.v x) = s.look (.v y) ∧ ∀ p, p ≠ .v x → t.look p = s.look p

/-- `OR`, `AND`, `XOR` (R135 to R137), bit by bit; VF is not a flag here, by the spec's decision D23 (log entry 13). -/
def Obligations.LogicOperationsAreBitwise : Prop :=
  ∀ (x y : Reg) (s : State),
    (∃ t, exec (.orVxVy x y) s = .next t ∧
      (∀ b, b < 8 → (t.getV x).getLsbD b = ((s.getV x).getLsbD b || (s.getV y).getLsbD b)) ∧
      ∀ p, p ≠ .v x → t.look p = s.look p) ∧
    (∃ t, exec (.andVxVy x y) s = .next t ∧
      (∀ b, b < 8 → (t.getV x).getLsbD b = ((s.getV x).getLsbD b && (s.getV y).getLsbD b)) ∧
      ∀ p, p ≠ .v x → t.look p = s.look p) ∧
    (∃ t, exec (.xorVxVy x y) s = .next t ∧
      (∀ b, b < 8 → (t.getV x).getLsbD b = ((s.getV x).getLsbD b != (s.getV y).getLsbD b)) ∧
      ∀ p, p ≠ .v x → t.look p = s.look p)

/-- `ADD Vx,Vy` (R138): the sum modulo 256, VF = 1 iff the true sum exceeds 255. With x = 15 the flag wins, the spec's
decision D5 in R143 (log entry 13). -/
def Obligations.AddVxVySetsSumAndCarry : Prop :=
  ∀ (x y : Reg) (s : State), ∃ t, exec (.addVxVy x y) s = .next t ∧
    (x ≠ 15 → t.look (.v x) = (s.look (.v x) + s.look (.v y)) % 256) ∧
    t.look (.v 15) = (if s.look (.v x) + s.look (.v y) > 255 then 1 else 0) ∧
    ∀ p, p ≠ .v x → p ≠ .v 15 → t.look p = s.look p

/-- `SUB Vx,Vy` (R139): the difference modulo 256, VF = 1 iff there is no borrow (equal operands included, D34). With
x = 15 the flag wins (R143, D5; log entry 13). -/
def Obligations.SubVxVySetsDifferenceAndNotBorrow : Prop :=
  ∀ (x y : Reg) (s : State), ∃ t, exec (.subVxVy x y) s = .next t ∧
    (x ≠ 15 → t.look (.v x) = (s.look (.v x) + 256 - s.look (.v y)) % 256) ∧
    t.look (.v 15) = (if s.look (.v y) ≤ s.look (.v x) then 1 else 0) ∧
    ∀ p, p ≠ .v x → p ≠ .v 15 → t.look p = s.look p

/-- `SUBN Vx,Vy` (R141): Vy - Vx modulo 256, VF = 1 iff there is no borrow (equal operands included, D34). With x = 15
the flag wins (R143, D5; log entry 13). -/
def Obligations.SubnVxVySetsDifferenceAndNotBorrow : Prop :=
  ∀ (x y : Reg) (s : State), ∃ t, exec (.subnVxVy x y) s = .next t ∧
    (x ≠ 15 → t.look (.v x) = (s.look (.v y) + 256 - s.look (.v x)) % 256) ∧
    t.look (.v 15) = (if s.look (.v x) ≤ s.look (.v y) then 1 else 0) ∧
    ∀ p, p ≠ .v x → p ≠ .v 15 → t.look p = s.look p

/-- `SHR Vx` (R140) and `SHL Vx` (R142): Vx in place, halved or doubled modulo 256, VF = the bit moved out; the
register y plays no part. With x = 15 the flag wins (R143, D5; log entry 13). -/
def Obligations.ShiftsMoveOneBitIntoVF : Prop :=
  ∀ (x y : Reg) (s : State),
    (∃ t, exec (.shrVx x y) s = .next t ∧ (x ≠ 15 → t.look (.v x) = s.look (.v x) / 2) ∧
      t.look (.v 15) = s.look (.v x) % 2 ∧ ∀ p, p ≠ .v x → p ≠ .v 15 → t.look p = s.look p) ∧
    (∃ t, exec (.shlVx x y) s = .next t ∧ (x ≠ 15 → t.look (.v x) = 2 * s.look (.v x) % 256) ∧
      t.look (.v 15) = s.look (.v x) / 128 ∧ ∀ p, p ≠ .v x → p ≠ .v 15 → t.look p = s.look p)

/-- `RND Vx,byte` (R144): the step's random input AND the mask, bit by bit, whatever the input is; the result has no
bit the mask lacks. The input is the free value `Config.rnd` at the sample count (log entry 2). -/
def Obligations.RndVxByteMasksTheRandomInput : Prop :=
  ∀ (x : Reg) (kk : Byte) (s : State), ∃ t, exec (.rndVxByte x kk) s = .next t ∧
    (∀ b, b < 8 → (t.getV x).getLsbD b = ((Config.rnd s.rndCount).getLsbD b && kk.getLsbD b)) ∧
    t.look (.v x) ≤ kk.toNat ∧ t.rndCount = s.rndCount + 1 ∧
    ∀ p, p ≠ .v x → p ≠ .rndCount → t.look p = s.look p

/-! ### Index register and memory (44_index_memory) -/

/-- `LD I,addr` (R150): encoding, result, and nothing else written. -/
def Obligations.LdIAddrLoadsTheAddress : Prop :=
  ∀ (nnn : Addr) (s : State),
    decodeWord (BitVec.ofNat 16 (0xA000 + nnn.toNat)) = some (.ldIAddr nnn) ∧
    ∃ t, exec (.ldIAddr nnn) s = .next t ∧ t.look .i = nnn.toNat ∧ ∀ p, p ≠ .i → t.look p = s.look p

/-- `ADD I,Vx` (R151): modulo 4096; VF is not written, by the spec's decision D23 (log entry 13). -/
def Obligations.AddIVxWrapsAt4096 : Prop :=
  ∀ (x : Reg) (s : State), ∃ t, exec (.addIVx x) s = .next t ∧
    t.look .i = (s.look .i + s.look (.v x)) % 4096 ∧ ∀ p, p ≠ .i → t.look p = s.look p

/-- `LD F,Vx` (R152): I = 5 times the digit in the low nibble; the layout and the masking are the spec's decision D9
(log entry 14). -/
def Obligations.LdFVxAddressesTheGlyph : Prop :=
  ∀ (x : Reg) (s : State), ∃ t, exec (.ldFVx x) s = .next t ∧
    t.look .i = 5 * (s.look (.v x) % 16) ∧ ∀ p, p ≠ .i → t.look p = s.look p

/-- `LD B,Vx` (R153): the three decimal digits at (I + j) mod 4096, hundreds first (the spec's decision D26, log
entry 6); every other byte and every register is unchanged. -/
def Obligations.LdBVxStoresTheDigits : Prop :=
  ∀ (x : Reg) (s : State), Memory.wf s.mem = true → ∃ t, exec (.ldBVx x) s = .next t ∧
    (t.readByte ((s.look .i) % 4096)).toNat = s.look (.v x) / 100 ∧
    (t.readByte ((s.look .i + 1) % 4096)).toNat = s.look (.v x) / 10 % 10 ∧
    (t.readByte ((s.look .i + 2) % 4096)).toNat = s.look (.v x) % 10 ∧
    (∀ a : Fin 4096, (∀ j, j < 3 → a.val ≠ (s.look .i + j) % 4096) → t.look (.mem a) = s.look (.mem a)) ∧
    ∀ p, (∀ a, p ≠ .mem a) → t.look p = s.look p

/-- `LD [I],Vx` (R155): V0 to Vx at (I + j) mod 4096 (the wrap is the spec's decision D6, log entry 12); every other
byte and every register is unchanged, I included (D8). -/
def Obligations.LdMemVxStoresTheRegisters : Prop :=
  ∀ (x : Reg) (s : State), Memory.wf s.mem = true → ∃ t, exec (.ldMemVx x) s = .next t ∧
    (∀ j : Reg, j ≤ x → (t.readByte ((s.look .i + j.val) % 4096)).toNat = s.look (.v j)) ∧
    (∀ a : Fin 4096, (∀ j : Reg, j ≤ x → a.val ≠ (s.look .i + j.val) % 4096) → t.look (.mem a) = s.look (.mem a)) ∧
    ∀ p, (∀ a, p ≠ .mem a) → t.look p = s.look p

/-- `LD Vx,[I]` (R156): V0 to Vx from (I + j) mod 4096 (D6, log entry 12); the registers above x, I and all of memory
are unchanged. -/
def Obligations.LdVxMemLoadsTheRegisters : Prop :=
  ∀ (x : Reg) (s : State), ∃ t, exec (.ldVxMem x) s = .next t ∧
    (∀ j : Reg, j ≤ x → t.look (.v j) = (s.readByte ((s.look .i + j.val) % 4096)).toNat) ∧
    ∀ p, (∀ j : Reg, j ≤ x → p ≠ .v j) → t.look p = s.look p

/-- "After `LD [I],Vx` a `LD Vx,[I]` with the same I and x restores the same registers" (R156), whatever the other
state has become in between. -/
def Obligations.StoreThenLoadRestoresTheRegisters : Prop :=
  ∀ (x : Reg) (s : State), Memory.wf s.mem = true → ∃ t, exec (.ldMemVx x) s = .next t ∧
    ∀ u : State, u.mem = t.mem → u.i = t.i →
      ∃ w, exec (.ldVxMem x) u = .next w ∧ ∀ j : Reg, j ≤ x → w.getV j = s.getV j

/-- A store over the instruction stream is seen by the next fetch (20_memory R66): after `LD [I],Vx`, a PC at the place
of register j, with register j + 1 stored behind it, fetches the word Vj ++ Vj+1. -/
def Obligations.StoreIsSeenByTheNextFetch : Prop :=
  ∀ (x j j' : Reg) (s : State), Memory.wf s.mem = true → s.ak = none → j'.val = j.val + 1 → j' ≤ x →
    s.pc.toNat = (s.i.toNat + j.val) % 4096 → s.pc.toNat + 1 < 4096 →
    ∃ t, exec (.ldMemVx x) s = .next t ∧ t.fetches (wordOfBytes (s.getV j) (s.getV j'))

/-! ### Control transfer (41_flow) -/

/-- `JP addr` (R110): encoding, result, nothing else written; the target is not checked, after a jump to 0xFFF the
next step fails with FetchOutOfBounds, and a step that fetches a jump to its own address changes only the timers (and
the status, the model's own field). -/
def Obligations.JpAddrSetsPc : Prop :=
  ∀ (nnn : Addr) (s : State),
    decodeWord (BitVec.ofNat 16 (0x1000 + nnn.toNat)) = some (.jpAddr nnn) ∧
    (∃ t, exec (.jpAddr nnn) s = .next t ∧ t.look .pc = nnn.toNat ∧ (∀ p, p ≠ .pc → t.look p = s.look p) ∧
      (nnn = 0xFFF → s.ak = none → ∃ u, step t = .next u ∧ u.status = .fetchOutOfBounds)) ∧
    (s.fetches (BitVec.ofNat 16 (0x1000 + nnn.toNat)) → s.pc.toNat = nnn.toNat →
      ∃ u, step s = .next u ∧ u.status = .ok ∧ ∀ p, p ≠ .dt → p ≠ .st → p ≠ .status → u.look p = s.look p)

/-- `JP V0,addr` (R113): nnn + V0, not reduced (the spec's decision D32, log entry 16). -/
def Obligations.JpV0AddrAddsV0 : Prop :=
  ∀ (nnn : Addr) (s : State), ∃ t, exec (.jpV0Addr nnn) s = .next t ∧
    t.look .pc = nnn.toNat + s.look (.v 0) ∧ ∀ p, p ≠ .pc → t.look p = s.look p

/-- `CALL addr` (R112) below depth 16: the advanced PC is pushed, SP grows by 1, PC = nnn, nothing else changes. -/
def Obligations.CallAddrPushesTheReturnAddress : Prop :=
  ∀ (nnn : Addr) (s : State), s.sp.val < 16 → ∃ t, exec (.callAddr nnn) s = .next t ∧
    (∀ j : Fin 16, j.val = s.sp.val → t.look (.stack j) = s.look .pc) ∧ t.look .sp = s.look .sp + 1 ∧
    t.look .pc = nnn.toNat ∧
    ∀ p, p ≠ .pc → p ≠ .sp → (∀ j : Fin 16, j.val = s.sp.val → p ≠ .stack j) → t.look p = s.look p

/-- `RET` (R111) with a nonempty stack: SP falls by 1, PC takes the entry at the new SP, which stays in the array,
nothing else changes. -/
def Obligations.RetPopsTheReturnAddress : Prop :=
  ∀ s : State, 0 < s.sp.val → ∃ t, exec .ret s = .next t ∧ t.look .sp + 1 = s.look .sp ∧
    (∀ j : Fin 16, j.val + 1 = s.sp.val → t.look .pc = s.look (.stack j)) ∧
    ∀ p, p ≠ .pc → p ≠ .sp → t.look p = s.look p

/-- Where CALL and RET trap (R111, R112): at depth 16 and at depth 0 they report their error and write nothing else,
PC keeping the advanced value, and the timers do not tick (R98, the spec's decision D3; log entry 11). -/
def Obligations.StackErrorsWriteNothing : Prop :=
  (∀ (nnn : Addr) (s : State), s.sp.val = 16 → ∃ t, exec (.callAddr nnn) s = .next t ∧ t.status = .stackOverflow ∧
    t.finish = t ∧ ∀ p, p ≠ .status → t.look p = s.look p) ∧
  (∀ s : State, s.sp.val = 0 → ∃ t, exec .ret s = .next t ∧ t.status = .stackUnderflow ∧
    t.finish = t ∧ ∀ p, p ≠ .status → t.look p = s.look p)

/-- "CALL then RET returns PC to the instruction immediately after the CALL" (41_flow R111), for any body that comes
back with the same SP and stack. -/
def Obligations.CallThenRetComesBack : Prop :=
  ∀ (nnn : Addr) (s : State), s.sp.val < 16 → ∃ t, exec (.callAddr nnn) s = .next t ∧
    ∀ u : State, u.sp = t.sp → u.stack = t.stack → ∃ w, exec .ret u = .next w ∧ w.pc = s.pc ∧ w.sp = s.sp

/-! ### Skips (42_skip) -/

/-- The skips on register values (R121 to R124): encoding (5xy0 and 9xy0 only with a trailing nibble of 0), a further
PC + 2 exactly when the condition holds, nothing else written. -/
def Obligations.RegisterSkipsAddTwoToPc : Prop :=
  ∀ (x y : Reg) (kk : Byte) (s : State),
    (decodeWord (BitVec.ofNat 16 (0x3000 + 0x100 * x.val + kk.toNat)) = some (.seVxByte x kk) ∧
      ∃ t, exec (.seVxByte x kk) s = .next t ∧ t.pc = (if s.look (.v x) = kk.toNat then s.pc + 2 else s.pc) ∧
        ∀ p, p ≠ .pc → t.look p = s.look p) ∧
    (decodeWord (BitVec.ofNat 16 (0x4000 + 0x100 * x.val + kk.toNat)) = some (.sneVxByte x kk) ∧
      ∃ t, exec (.sneVxByte x kk) s = .next t ∧ t.pc = (if s.look (.v x) = kk.toNat then s.pc else s.pc + 2) ∧
        ∀ p, p ≠ .pc → t.look p = s.look p) ∧
    (decodeWord (BitVec.ofNat 16 (0x5000 + 0x100 * x.val + 0x10 * y.val)) = some (.seVxVy x y) ∧
      (∀ n, 0 < n → n < 16 → decodeWord (BitVec.ofNat 16 (0x5000 + 0x100 * x.val + 0x10 * y.val + n)) = none) ∧
      ∃ t, exec (.seVxVy x y) s = .next t ∧
        t.pc = (if s.look (.v x) = s.look (.v y) then s.pc + 2 else s.pc) ∧ ∀ p, p ≠ .pc → t.look p = s.look p) ∧
    (decodeWord (BitVec.ofNat 16 (0x9000 + 0x100 * x.val + 0x10 * y.val)) = some (.sneVxVy x y) ∧
      (∀ n, 0 < n → n < 16 → decodeWord (BitVec.ofNat 16 (0x9000 + 0x100 * x.val + 0x10 * y.val + n)) = none) ∧
      ∃ t, exec (.sneVxVy x y) s = .next t ∧
        t.pc = (if s.look (.v x) = s.look (.v y) then s.pc else s.pc + 2) ∧ ∀ p, p ≠ .pc → t.look p = s.look p)

/-- The skips on a key (R125, R126): the key is the low nibble of Vx (R127, the spec's decision D10, log entry 14);
for every state exactly one of the two skips; nothing but PC is written. -/
def Obligations.KeySkipsTestTheSnapshot : Prop :=
  ∀ (x : Reg) (s : State), ∃ t u, exec (.skpVx x) s = .next t ∧ exec (.sknpVx x) s = .next u ∧
    (s.k.getLsbD (s.look (.v x) % 16) = true → t.pc = s.pc + 2 ∧ u.pc = s.pc) ∧
    (s.k.getLsbD (s.look (.v x) % 16) = false → t.pc = s.pc ∧ u.pc = s.pc + 2) ∧
    ∀ p, p ≠ .pc → t.look p = s.look p ∧ u.look p = s.look p

/-! ### Display (45_display) -/

/-- `CLS` (R166): every pixel 0, DF set without condition (the spec's resolution C3, log entry 10), nothing else. -/
def Obligations.ClsClearsTheScreen : Prop :=
  ∀ s : State, ∃ t, exec .cls s = .next t ∧ (∀ xx yy, t.look (.pixel xx yy) = 0) ∧ t.df = true ∧
    ∀ p, (∀ xx yy, p ≠ .pixel xx yy) → p ≠ .df → t.look p = s.look p

/-- `DRW Vx,Vy,nibble` (R167): every pixel the sprite has a 1 bit at is inverted and no other; VF = 1 exactly if a lit
pixel was turned off; DF is set; memory, I and every register but VF are unchanged. The coordinates are those before
VF is written (D5, log entry 13); the bit order and the wrap are the spec's decisions D25 and D30 (log entries 7
and 10). -/
def Obligations.DrwInvertsTheSpritePixels : Prop :=
  ∀ (x y : Reg) (n : Nat) (s : State), n < 16 → ∃ t, exec (.drwVxVyNibble x y n) s = .next t ∧
    (∀ xx yy, s.spriteHits (s.look (.v x)) (s.look (.v y)) n xx yy →
      t.look (.pixel xx yy) = 1 - s.look (.pixel xx yy)) ∧
    (∀ xx yy, ¬ s.spriteHits (s.look (.v x)) (s.look (.v y)) n xx yy →
      t.look (.pixel xx yy) = s.look (.pixel xx yy)) ∧
    t.look (.v 15) ≤ 1 ∧
    (t.look (.v 15) = 1 ↔ ∃ xx yy, s.look (.pixel xx yy) = 1 ∧ t.look (.pixel xx yy) = 0) ∧
    t.df = true ∧ ∀ p, (∀ xx yy, p ≠ .pixel xx yy) → p ≠ .v 15 → p ≠ .df → t.look p = s.look p

/-- "Drawing the same sprite twice at the same place restores the framebuffer" (R167), and the second draw reports a
collision if the sprite has any 1 bit and the screen was clear there. The coordinate registers are not VF, which the
first draw overwrites. -/
def Obligations.DrawingTwiceRestoresTheScreen : Prop :=
  ∀ (x y : Reg) (n : Nat) (s : State), x ≠ 15 → y ≠ 15 → n < 16 →
    ∃ t u, exec (.drwVxVyNibble x y n) s = .next t ∧ exec (.drwVxVyNibble x y n) t = .next u ∧
      (∀ xx yy, u.look (.pixel xx yy) = s.look (.pixel xx yy)) ∧
      ((∃ xx yy, s.spriteHits (s.look (.v x)) (s.look (.v y)) n xx yy ∧ s.look (.pixel xx yy) = 0) →
        u.look (.v 15) = 1)

/-! ### Timers and the key wait (46_timer_key) -/

/-- `LD Vx,DT` (R175), `LD DT,Vx` (R176) and `LD ST,Vx` (R177): result, and nothing else written. -/
def Obligations.TimerInstructionsMoveTheTimers : Prop :=
  ∀ (x : Reg) (s : State),
    (∃ t, exec (.ldVxDT x) s = .next t ∧ t.look (.v x) = s.look .dt ∧ ∀ p, p ≠ .v x → t.look p = s.look p) ∧
    (∃ t, exec (.ldDTVx x) s = .next t ∧ t.look .dt = s.look (.v x) ∧ ∀ p, p ≠ .dt → t.look p = s.look p) ∧
    (∃ t, exec (.ldSTVx x) s = .next t ∧ t.look .st = s.look (.v x) ∧ ∀ p, p ≠ .st → t.look p = s.look p)

/-- A timer written in a step is decremented in the same step (70_reset_and_hazards R246): after the step that runs
`LD DT,Vx` or `LD ST,Vx` the timer holds Vx - 1, or 0 for Vx = 0. -/
def Obligations.TimerWrittenIsTickedInTheSameStep : Prop :=
  ∀ (x : Reg) (s : State) (op : Word), s.fetches op →
    (op.toNat = 0xF015 + 0x100 * x.val → ∃ t, step s = .next t ∧ t.status = .ok ∧ t.look .dt = s.look (.v x) - 1) ∧
    (op.toNat = 0xF018 + 0x100 * x.val → ∃ t, step s = .next t ∧ t.status = .ok ∧ t.look .st = s.look (.v x) - 1)

/-- `LD Vx,K`, the step that fetches it (R178): the wait for register x begins with this step's snapshot as its
baseline (the spec's decision D12, log entry 9); no register is written, PC included (D11). -/
def Obligations.LdVxKBeginsTheWait : Prop :=
  ∀ (x : Reg) (s : State), ∃ t, exec (.ldVxK x) s = .next t ∧ t.ak = some x ∧ t.kl = s.k ∧
    ∀ p, p ≠ .ak → p ≠ .kl → t.look p = s.look p

/-- A key held since before the `LD Vx,K` does not end the wait (R178): from the state the instruction leaves, with
the keypad unchanged, every step waits on, for any number of steps. -/
def Obligations.HeldKeysNeverEndTheWait : Prop :=
  ∀ (x : Reg) (s : State), ∃ t, exec (.ldVxK x) s = .next t ∧
    ∀ k : Nat, ∃ u : State, core.run k t = .next u ∧ u.ak = some x ∧ u.pc = s.pc ∧ ∀ r, u.getV r = s.getV r
end

