-- ==== Sys2Proof/Laws/Memory.lean ====
section
/-! SUPPORT. Memory: read after write, the canonical form is kept, and it is canonical (equal reads, equal lists). -/

namespace Sys2Proof.Machine.Memory

theorem read_entry (m : Mem) (a a' : Nat) (b : Byte) (h : read m a = resetByte a ∨ b ≠ resetByte a) :
    read (entry a b m) a' = if a' = a then b else read m a' := by
  unfold entry
  split
  · rename_i hb
    rcases h with h | h
    · split
      · subst_vars; exact h
      · rfl
    · exact absurd hb h
  · rfl

theorem read_below (m : Mem) : ∀ lo a, wfFrom lo m = true → a < lo → read m a = resetByte a := by
  induction m with
  | nil => intros; rfl
  | cons c m ih =>
    obtain ⟨a', b'⟩ := c
    intro lo a h ha
    simp only [wfFrom, Bool.and_eq_true, decide_eq_true_eq] at h
    obtain ⟨⟨⟨h1, -⟩, -⟩, h2⟩ := h
    rw [read, if_neg (by omega)]
    exact ih _ _ h2 (by omega)

/-- Read after write, in memory that is canonical. -/
theorem read_writeFrom (m : Mem) : ∀ lo a a' b, wfFrom lo m = true →
    read (write m a b) a' = if a' = a then b else read m a' := by
  induction m with
  | nil => intro lo a a' b _; exact read_entry [] a a' b (.inl rfl)
  | cons c m ih =>
    obtain ⟨c', d⟩ := c
    intro lo a a' b h
    have h' := h
    simp only [wfFrom, Bool.and_eq_true, decide_eq_true_eq] at h'
    obtain ⟨⟨⟨h1, -⟩, -⟩, h2⟩ := h'
    unfold write
    split
    · apply read_entry
      left
      rw [read, if_neg (by omega)]
      exact read_below m _ _ h2 (by omega)
    · split
      · rename_i hac
        rw [read_entry _ _ _ _ (.inl (read_below m _ _ h2 (by omega)))]
        simp only [read]
        split <;> simp_all
      · simp only [read, ih _ a a' b h2]
        split <;> split <;> simp_all

theorem read_write (m : Mem) (a a' : Nat) (b : Byte) (h : wf m = true) :
    read (write m a b) a' = if a' = a then b else read m a' := read_writeFrom m 0 a a' b h

/-- A write leaves every other address alone, canonical or not. -/
theorem read_write_ne (m : Mem) (a a' : Nat) (b : Byte) (h : a' ≠ a) : read (write m a b) a' = read m a' := by
  have hentry : ∀ m : Mem, read (entry a b m) a' = read m a' := by
    intro m; unfold entry; split
    · rfl
    · exact if_neg h
  induction m with
  | nil => exact hentry []
  | cons c m ih =>
    obtain ⟨c', d⟩ := c
    unfold write
    split
    · exact hentry _
    · split
      · subst_vars; rw [hentry, read, if_neg h]
      · simp only [read, ih]

theorem wfFrom_mono (m : Mem) (lo lo' : Nat) (h : wfFrom lo m = true) (hl : lo' ≤ lo) : wfFrom lo' m = true := by
  cases m with
  | nil => rfl
  | cons c m =>
    simp only [wfFrom, Bool.and_eq_true, decide_eq_true_eq] at h ⊢
    exact ⟨⟨⟨by omega, h.1.1.2⟩, h.1.2⟩, h.2⟩

theorem wfFrom_entry (m : Mem) (lo a : Nat) (b : Byte) (h : wfFrom (a + 1) m = true) (hl : lo ≤ a) (ha : a < 4096) :
    wfFrom lo (entry a b m) = true := by
  unfold entry
  split
  · exact wfFrom_mono _ _ _ h (by omega)
  · simp only [wfFrom, Bool.and_eq_true, decide_eq_true_eq]
    exact ⟨⟨⟨hl, ha⟩, ‹_›⟩, h⟩

theorem wfFrom_write (m : Mem) : ∀ lo a b, wfFrom lo m = true → lo ≤ a → a < 4096 → wfFrom lo (write m a b) = true := by
  induction m with
  | nil => intro lo a b _ hl ha; exact wfFrom_entry [] lo a b rfl hl ha
  | cons c m ih =>
    obtain ⟨c', d⟩ := c
    intro lo a b h hl ha
    have h' := h
    simp only [wfFrom, Bool.and_eq_true, decide_eq_true_eq] at h'
    obtain ⟨⟨⟨h1, h3⟩, h4⟩, h2⟩ := h'
    unfold write
    split
    · apply wfFrom_entry _ _ _ _ _ hl ha
      simp only [wfFrom, Bool.and_eq_true, decide_eq_true_eq]
      exact ⟨⟨⟨by omega, h3⟩, h4⟩, h2⟩
    · split
      · rename_i hac
        subst hac
        exact wfFrom_entry _ _ _ _ h2 hl ha
      · simp only [wfFrom, Bool.and_eq_true, decide_eq_true_eq]
        exact ⟨⟨⟨h1, h3⟩, h4⟩, ih _ _ _ h2 (by omega) ha⟩

/-- Every write inside memory keeps the canonical form. -/
theorem wf_write (m : Mem) (a : Nat) (b : Byte) (h : wf m = true) (ha : a < 4096) : wf (write m a b) = true :=
  wfFrom_write m 0 a b h (Nat.zero_le _) ha

theorem wf_reset : wf State.reset.mem = true := rfl

end Sys2Proof.Machine.Memory
end

