-- ==== Sys2Proof/Laws/State.lean ====
section
/-! SUPPORT. One lemma per field per update of the state: what the field holds afterwards, by rfl. -/

namespace Sys2Proof.Machine.State

variable (s : State)

@[simp] theorem writeByte_v (a : Nat) (b : Byte) : (writeByte a b s).v = s.v := rfl
@[simp] theorem writeByte_i (a : Nat) (b : Byte) : (writeByte a b s).i = s.i := rfl
@[simp] theorem writeByte_pc (a : Nat) (b : Byte) : (writeByte a b s).pc = s.pc := rfl
@[simp] theorem writeByte_sp (a : Nat) (b : Byte) : (writeByte a b s).sp = s.sp := rfl
@[simp] theorem writeByte_stack (a : Nat) (b : Byte) : (writeByte a b s).stack = s.stack := rfl
@[simp] theorem writeByte_dt (a : Nat) (b : Byte) : (writeByte a b s).dt = s.dt := rfl
@[simp] theorem writeByte_st (a : Nat) (b : Byte) : (writeByte a b s).st = s.st := rfl
@[simp] theorem writeByte_mem (a : Nat) (b : Byte) : (writeByte a b s).mem = Memory.write s.mem a b := rfl
@[simp] theorem writeByte_fb (a : Nat) (b : Byte) : (writeByte a b s).fb = s.fb := rfl
@[simp] theorem writeByte_df (a : Nat) (b : Byte) : (writeByte a b s).df = s.df := rfl
@[simp] theorem writeByte_k (a : Nat) (b : Byte) : (writeByte a b s).k = s.k := rfl
@[simp] theorem writeByte_ak (a : Nat) (b : Byte) : (writeByte a b s).ak = s.ak := rfl
@[simp] theorem writeByte_kl (a : Nat) (b : Byte) : (writeByte a b s).kl = s.kl := rfl
@[simp] theorem writeByte_status (a : Nat) (b : Byte) : (writeByte a b s).status = s.status := rfl
@[simp] theorem writeByte_rndCount (a : Nat) (b : Byte) : (writeByte a b s).rndCount = s.rndCount := rfl

@[simp] theorem setV_v (r : Reg) (b : Byte) : (setV r b s).v = s.v.set r.val b := rfl
@[simp] theorem setV_i (r : Reg) (b : Byte) : (setV r b s).i = s.i := rfl
@[simp] theorem setV_pc (r : Reg) (b : Byte) : (setV r b s).pc = s.pc := rfl
@[simp] theorem setV_sp (r : Reg) (b : Byte) : (setV r b s).sp = s.sp := rfl
@[simp] theorem setV_stack (r : Reg) (b : Byte) : (setV r b s).stack = s.stack := rfl
@[simp] theorem setV_dt (r : Reg) (b : Byte) : (setV r b s).dt = s.dt := rfl
@[simp] theorem setV_st (r : Reg) (b : Byte) : (setV r b s).st = s.st := rfl
@[simp] theorem setV_mem (r : Reg) (b : Byte) : (setV r b s).mem = s.mem := rfl
@[simp] theorem setV_fb (r : Reg) (b : Byte) : (setV r b s).fb = s.fb := rfl
@[simp] theorem setV_df (r : Reg) (b : Byte) : (setV r b s).df = s.df := rfl
@[simp] theorem setV_k (r : Reg) (b : Byte) : (setV r b s).k = s.k := rfl
@[simp] theorem setV_ak (r : Reg) (b : Byte) : (setV r b s).ak = s.ak := rfl
@[simp] theorem setV_kl (r : Reg) (b : Byte) : (setV r b s).kl = s.kl := rfl
@[simp] theorem setV_status (r : Reg) (b : Byte) : (setV r b s).status = s.status := rfl
@[simp] theorem setV_rndCount (r : Reg) (b : Byte) : (setV r b s).rndCount = s.rndCount := rfl

@[simp] theorem setI_v (w : Word) : (setI w s).v = s.v := rfl
@[simp] theorem setI_i (w : Word) : (setI w s).i = w := rfl
@[simp] theorem setI_pc (w : Word) : (setI w s).pc = s.pc := rfl
@[simp] theorem setI_sp (w : Word) : (setI w s).sp = s.sp := rfl
@[simp] theorem setI_stack (w : Word) : (setI w s).stack = s.stack := rfl
@[simp] theorem setI_dt (w : Word) : (setI w s).dt = s.dt := rfl
@[simp] theorem setI_st (w : Word) : (setI w s).st = s.st := rfl
@[simp] theorem setI_mem (w : Word) : (setI w s).mem = s.mem := rfl
@[simp] theorem setI_fb (w : Word) : (setI w s).fb = s.fb := rfl
@[simp] theorem setI_df (w : Word) : (setI w s).df = s.df := rfl
@[simp] theorem setI_k (w : Word) : (setI w s).k = s.k := rfl
@[simp] theorem setI_ak (w : Word) : (setI w s).ak = s.ak := rfl
@[simp] theorem setI_kl (w : Word) : (setI w s).kl = s.kl := rfl
@[simp] theorem setI_status (w : Word) : (setI w s).status = s.status := rfl
@[simp] theorem setI_rndCount (w : Word) : (setI w s).rndCount = s.rndCount := rfl

@[simp] theorem setPc_v (w : Word) : (setPc w s).v = s.v := rfl
@[simp] theorem setPc_i (w : Word) : (setPc w s).i = s.i := rfl
@[simp] theorem setPc_pc (w : Word) : (setPc w s).pc = w := rfl
@[simp] theorem setPc_sp (w : Word) : (setPc w s).sp = s.sp := rfl
@[simp] theorem setPc_stack (w : Word) : (setPc w s).stack = s.stack := rfl
@[simp] theorem setPc_dt (w : Word) : (setPc w s).dt = s.dt := rfl
@[simp] theorem setPc_st (w : Word) : (setPc w s).st = s.st := rfl
@[simp] theorem setPc_mem (w : Word) : (setPc w s).mem = s.mem := rfl
@[simp] theorem setPc_fb (w : Word) : (setPc w s).fb = s.fb := rfl
@[simp] theorem setPc_df (w : Word) : (setPc w s).df = s.df := rfl
@[simp] theorem setPc_k (w : Word) : (setPc w s).k = s.k := rfl
@[simp] theorem setPc_ak (w : Word) : (setPc w s).ak = s.ak := rfl
@[simp] theorem setPc_kl (w : Word) : (setPc w s).kl = s.kl := rfl
@[simp] theorem setPc_status (w : Word) : (setPc w s).status = s.status := rfl
@[simp] theorem setPc_rndCount (w : Word) : (setPc w s).rndCount = s.rndCount := rfl

@[simp] theorem setDT_v (b : Byte) : (setDT b s).v = s.v := rfl
@[simp] theorem setDT_i (b : Byte) : (setDT b s).i = s.i := rfl
@[simp] theorem setDT_pc (b : Byte) : (setDT b s).pc = s.pc := rfl
@[simp] theorem setDT_sp (b : Byte) : (setDT b s).sp = s.sp := rfl
@[simp] theorem setDT_stack (b : Byte) : (setDT b s).stack = s.stack := rfl
@[simp] theorem setDT_dt (b : Byte) : (setDT b s).dt = b := rfl
@[simp] theorem setDT_st (b : Byte) : (setDT b s).st = s.st := rfl
@[simp] theorem setDT_mem (b : Byte) : (setDT b s).mem = s.mem := rfl
@[simp] theorem setDT_fb (b : Byte) : (setDT b s).fb = s.fb := rfl
@[simp] theorem setDT_df (b : Byte) : (setDT b s).df = s.df := rfl
@[simp] theorem setDT_k (b : Byte) : (setDT b s).k = s.k := rfl
@[simp] theorem setDT_ak (b : Byte) : (setDT b s).ak = s.ak := rfl
@[simp] theorem setDT_kl (b : Byte) : (setDT b s).kl = s.kl := rfl
@[simp] theorem setDT_status (b : Byte) : (setDT b s).status = s.status := rfl
@[simp] theorem setDT_rndCount (b : Byte) : (setDT b s).rndCount = s.rndCount := rfl

@[simp] theorem setST_v (b : Byte) : (setST b s).v = s.v := rfl
@[simp] theorem setST_i (b : Byte) : (setST b s).i = s.i := rfl
@[simp] theorem setST_pc (b : Byte) : (setST b s).pc = s.pc := rfl
@[simp] theorem setST_sp (b : Byte) : (setST b s).sp = s.sp := rfl
@[simp] theorem setST_stack (b : Byte) : (setST b s).stack = s.stack := rfl
@[simp] theorem setST_dt (b : Byte) : (setST b s).dt = s.dt := rfl
@[simp] theorem setST_st (b : Byte) : (setST b s).st = b := rfl
@[simp] theorem setST_mem (b : Byte) : (setST b s).mem = s.mem := rfl
@[simp] theorem setST_fb (b : Byte) : (setST b s).fb = s.fb := rfl
@[simp] theorem setST_df (b : Byte) : (setST b s).df = s.df := rfl
@[simp] theorem setST_k (b : Byte) : (setST b s).k = s.k := rfl
@[simp] theorem setST_ak (b : Byte) : (setST b s).ak = s.ak := rfl
@[simp] theorem setST_kl (b : Byte) : (setST b s).kl = s.kl := rfl
@[simp] theorem setST_status (b : Byte) : (setST b s).status = s.status := rfl
@[simp] theorem setST_rndCount (b : Byte) : (setST b s).rndCount = s.rndCount := rfl

@[simp] theorem display_v (fb : Screen) : (display fb s).v = s.v := rfl
@[simp] theorem display_i (fb : Screen) : (display fb s).i = s.i := rfl
@[simp] theorem display_pc (fb : Screen) : (display fb s).pc = s.pc := rfl
@[simp] theorem display_sp (fb : Screen) : (display fb s).sp = s.sp := rfl
@[simp] theorem display_stack (fb : Screen) : (display fb s).stack = s.stack := rfl
@[simp] theorem display_dt (fb : Screen) : (display fb s).dt = s.dt := rfl
@[simp] theorem display_st (fb : Screen) : (display fb s).st = s.st := rfl
@[simp] theorem display_mem (fb : Screen) : (display fb s).mem = s.mem := rfl
@[simp] theorem display_fb (fb : Screen) : (display fb s).fb = fb := rfl
@[simp] theorem display_df (fb : Screen) : (display fb s).df = true := rfl
@[simp] theorem display_k (fb : Screen) : (display fb s).k = s.k := rfl
@[simp] theorem display_ak (fb : Screen) : (display fb s).ak = s.ak := rfl
@[simp] theorem display_kl (fb : Screen) : (display fb s).kl = s.kl := rfl
@[simp] theorem display_status (fb : Screen) : (display fb s).status = s.status := rfl
@[simp] theorem display_rndCount (fb : Screen) : (display fb s).rndCount = s.rndCount := rfl

@[simp] theorem setK_v (keys : Keys) : (setK keys s).v = s.v := rfl
@[simp] theorem setK_i (keys : Keys) : (setK keys s).i = s.i := rfl
@[simp] theorem setK_pc (keys : Keys) : (setK keys s).pc = s.pc := rfl
@[simp] theorem setK_sp (keys : Keys) : (setK keys s).sp = s.sp := rfl
@[simp] theorem setK_stack (keys : Keys) : (setK keys s).stack = s.stack := rfl
@[simp] theorem setK_dt (keys : Keys) : (setK keys s).dt = s.dt := rfl
@[simp] theorem setK_st (keys : Keys) : (setK keys s).st = s.st := rfl
@[simp] theorem setK_mem (keys : Keys) : (setK keys s).mem = s.mem := rfl
@[simp] theorem setK_fb (keys : Keys) : (setK keys s).fb = s.fb := rfl
@[simp] theorem setK_df (keys : Keys) : (setK keys s).df = s.df := rfl
@[simp] theorem setK_k (keys : Keys) : (setK keys s).k = keys := rfl
@[simp] theorem setK_ak (keys : Keys) : (setK keys s).ak = s.ak := rfl
@[simp] theorem setK_kl (keys : Keys) : (setK keys s).kl = s.kl := rfl
@[simp] theorem setK_status (keys : Keys) : (setK keys s).status = s.status := rfl
@[simp] theorem setK_rndCount (keys : Keys) : (setK keys s).rndCount = s.rndCount := rfl

@[simp] theorem clearDF_v : (clearDF s).v = s.v := rfl
@[simp] theorem clearDF_i : (clearDF s).i = s.i := rfl
@[simp] theorem clearDF_pc : (clearDF s).pc = s.pc := rfl
@[simp] theorem clearDF_sp : (clearDF s).sp = s.sp := rfl
@[simp] theorem clearDF_stack : (clearDF s).stack = s.stack := rfl
@[simp] theorem clearDF_dt : (clearDF s).dt = s.dt := rfl
@[simp] theorem clearDF_st : (clearDF s).st = s.st := rfl
@[simp] theorem clearDF_mem : (clearDF s).mem = s.mem := rfl
@[simp] theorem clearDF_fb : (clearDF s).fb = s.fb := rfl
@[simp] theorem clearDF_df : (clearDF s).df = false := rfl
@[simp] theorem clearDF_k : (clearDF s).k = s.k := rfl
@[simp] theorem clearDF_ak : (clearDF s).ak = s.ak := rfl
@[simp] theorem clearDF_kl : (clearDF s).kl = s.kl := rfl
@[simp] theorem clearDF_status : (clearDF s).status = s.status := rfl
@[simp] theorem clearDF_rndCount : (clearDF s).rndCount = s.rndCount := rfl

@[simp] theorem setAK_v (a : Option Reg) : (setAK a s).v = s.v := rfl
@[simp] theorem setAK_i (a : Option Reg) : (setAK a s).i = s.i := rfl
@[simp] theorem setAK_pc (a : Option Reg) : (setAK a s).pc = s.pc := rfl
@[simp] theorem setAK_sp (a : Option Reg) : (setAK a s).sp = s.sp := rfl
@[simp] theorem setAK_stack (a : Option Reg) : (setAK a s).stack = s.stack := rfl
@[simp] theorem setAK_dt (a : Option Reg) : (setAK a s).dt = s.dt := rfl
@[simp] theorem setAK_st (a : Option Reg) : (setAK a s).st = s.st := rfl
@[simp] theorem setAK_mem (a : Option Reg) : (setAK a s).mem = s.mem := rfl
@[simp] theorem setAK_fb (a : Option Reg) : (setAK a s).fb = s.fb := rfl
@[simp] theorem setAK_df (a : Option Reg) : (setAK a s).df = s.df := rfl
@[simp] theorem setAK_k (a : Option Reg) : (setAK a s).k = s.k := rfl
@[simp] theorem setAK_ak (a : Option Reg) : (setAK a s).ak = a := rfl
@[simp] theorem setAK_kl (a : Option Reg) : (setAK a s).kl = s.kl := rfl
@[simp] theorem setAK_status (a : Option Reg) : (setAK a s).status = s.status := rfl
@[simp] theorem setAK_rndCount (a : Option Reg) : (setAK a s).rndCount = s.rndCount := rfl

@[simp] theorem latchKeys_v : (latchKeys s).v = s.v := rfl
@[simp] theorem latchKeys_i : (latchKeys s).i = s.i := rfl
@[simp] theorem latchKeys_pc : (latchKeys s).pc = s.pc := rfl
@[simp] theorem latchKeys_sp : (latchKeys s).sp = s.sp := rfl
@[simp] theorem latchKeys_stack : (latchKeys s).stack = s.stack := rfl
@[simp] theorem latchKeys_dt : (latchKeys s).dt = s.dt := rfl
@[simp] theorem latchKeys_st : (latchKeys s).st = s.st := rfl
@[simp] theorem latchKeys_mem : (latchKeys s).mem = s.mem := rfl
@[simp] theorem latchKeys_fb : (latchKeys s).fb = s.fb := rfl
@[simp] theorem latchKeys_df : (latchKeys s).df = s.df := rfl
@[simp] theorem latchKeys_k : (latchKeys s).k = s.k := rfl
@[simp] theorem latchKeys_ak : (latchKeys s).ak = s.ak := rfl
@[simp] theorem latchKeys_kl : (latchKeys s).kl = s.k := rfl
@[simp] theorem latchKeys_status : (latchKeys s).status = s.status := rfl
@[simp] theorem latchKeys_rndCount : (latchKeys s).rndCount = s.rndCount := rfl

@[simp] theorem countRnd_v : (countRnd s).v = s.v := rfl
@[simp] theorem countRnd_i : (countRnd s).i = s.i := rfl
@[simp] theorem countRnd_pc : (countRnd s).pc = s.pc := rfl
@[simp] theorem countRnd_sp : (countRnd s).sp = s.sp := rfl
@[simp] theorem countRnd_stack : (countRnd s).stack = s.stack := rfl
@[simp] theorem countRnd_dt : (countRnd s).dt = s.dt := rfl
@[simp] theorem countRnd_st : (countRnd s).st = s.st := rfl
@[simp] theorem countRnd_mem : (countRnd s).mem = s.mem := rfl
@[simp] theorem countRnd_fb : (countRnd s).fb = s.fb := rfl
@[simp] theorem countRnd_df : (countRnd s).df = s.df := rfl
@[simp] theorem countRnd_k : (countRnd s).k = s.k := rfl
@[simp] theorem countRnd_ak : (countRnd s).ak = s.ak := rfl
@[simp] theorem countRnd_kl : (countRnd s).kl = s.kl := rfl
@[simp] theorem countRnd_status : (countRnd s).status = s.status := rfl
@[simp] theorem countRnd_rndCount : (countRnd s).rndCount = s.rndCount + 1 := rfl

@[simp] theorem setStatus_v (e : Status) : (setStatus e s).v = s.v := rfl
@[simp] theorem setStatus_i (e : Status) : (setStatus e s).i = s.i := rfl
@[simp] theorem setStatus_pc (e : Status) : (setStatus e s).pc = s.pc := rfl
@[simp] theorem setStatus_sp (e : Status) : (setStatus e s).sp = s.sp := rfl
@[simp] theorem setStatus_stack (e : Status) : (setStatus e s).stack = s.stack := rfl
@[simp] theorem setStatus_dt (e : Status) : (setStatus e s).dt = s.dt := rfl
@[simp] theorem setStatus_st (e : Status) : (setStatus e s).st = s.st := rfl
@[simp] theorem setStatus_mem (e : Status) : (setStatus e s).mem = s.mem := rfl
@[simp] theorem setStatus_fb (e : Status) : (setStatus e s).fb = s.fb := rfl
@[simp] theorem setStatus_df (e : Status) : (setStatus e s).df = s.df := rfl
@[simp] theorem setStatus_k (e : Status) : (setStatus e s).k = s.k := rfl
@[simp] theorem setStatus_ak (e : Status) : (setStatus e s).ak = s.ak := rfl
@[simp] theorem setStatus_kl (e : Status) : (setStatus e s).kl = s.kl := rfl
@[simp] theorem setStatus_status (e : Status) : (setStatus e s).status = e := rfl
@[simp] theorem setStatus_rndCount (e : Status) : (setStatus e s).rndCount = s.rndCount := rfl

/-! Readers after updates that leave what they read alone. -/

@[simp] theorem writeByte_getV (a : Nat) (b : Byte) (q : Reg) : (writeByte a b s).getV q = s.getV q := rfl
@[simp] theorem setV_readByte (r : Reg) (b : Byte) (q : Nat) : (setV r b s).readByte q = s.readByte q := rfl
@[simp] theorem setI_getV (w : Word) (q : Reg) : (setI w s).getV q = s.getV q := rfl
@[simp] theorem setI_readByte (w : Word) (q : Nat) : (setI w s).readByte q = s.readByte q := rfl
@[simp] theorem setPc_getV (w : Word) (q : Reg) : (setPc w s).getV q = s.getV q := rfl
@[simp] theorem setPc_readByte (w : Word) (q : Nat) : (setPc w s).readByte q = s.readByte q := rfl
@[simp] theorem setDT_getV (b : Byte) (q : Reg) : (setDT b s).getV q = s.getV q := rfl
@[simp] theorem setDT_readByte (b : Byte) (q : Nat) : (setDT b s).readByte q = s.readByte q := rfl
@[simp] theorem setST_getV (b : Byte) (q : Reg) : (setST b s).getV q = s.getV q := rfl
@[simp] theorem setST_readByte (b : Byte) (q : Nat) : (setST b s).readByte q = s.readByte q := rfl
@[simp] theorem display_getV (fb : Screen) (q : Reg) : (display fb s).getV q = s.getV q := rfl
@[simp] theorem display_readByte (fb : Screen) (q : Nat) : (display fb s).readByte q = s.readByte q := rfl
@[simp] theorem setK_getV (keys : Keys) (q : Reg) : (setK keys s).getV q = s.getV q := rfl
@[simp] theorem setK_readByte (keys : Keys) (q : Nat) : (setK keys s).readByte q = s.readByte q := rfl
@[simp] theorem clearDF_getV (q : Reg) : (clearDF s).getV q = s.getV q := rfl
@[simp] theorem clearDF_readByte (q : Nat) : (clearDF s).readByte q = s.readByte q := rfl
@[simp] theorem setAK_getV (a : Option Reg) (q : Reg) : (setAK a s).getV q = s.getV q := rfl
@[simp] theorem setAK_readByte (a : Option Reg) (q : Nat) : (setAK a s).readByte q = s.readByte q := rfl
@[simp] theorem latchKeys_getV (q : Reg) : (latchKeys s).getV q = s.getV q := rfl
@[simp] theorem latchKeys_readByte (q : Nat) : (latchKeys s).readByte q = s.readByte q := rfl
@[simp] theorem countRnd_getV (q : Reg) : (countRnd s).getV q = s.getV q := rfl
@[simp] theorem countRnd_readByte (q : Nat) : (countRnd s).readByte q = s.readByte q := rfl
@[simp] theorem setStatus_getV (e : Status) (q : Reg) : (setStatus e s).getV q = s.getV q := rfl
@[simp] theorem setStatus_readByte (e : Status) (q : Nat) : (setStatus e s).readByte q = s.readByte q := rfl

/-! The same for the operations made of these. -/

@[simp] theorem raise_v (e : Status) : (s.raise e).v = s.v := rfl
@[simp] theorem raise_i (e : Status) : (s.raise e).i = s.i := rfl
@[simp] theorem raise_pc (e : Status) : (s.raise e).pc = s.pc := rfl
@[simp] theorem raise_sp (e : Status) : (s.raise e).sp = s.sp := rfl
@[simp] theorem raise_stack (e : Status) : (s.raise e).stack = s.stack := rfl
@[simp] theorem raise_dt (e : Status) : (s.raise e).dt = s.dt := rfl
@[simp] theorem raise_st (e : Status) : (s.raise e).st = s.st := rfl
@[simp] theorem raise_mem (e : Status) : (s.raise e).mem = s.mem := rfl
@[simp] theorem raise_fb (e : Status) : (s.raise e).fb = s.fb := rfl
@[simp] theorem raise_df (e : Status) : (s.raise e).df = s.df := rfl
@[simp] theorem raise_k (e : Status) : (s.raise e).k = s.k := rfl
@[simp] theorem raise_ak (e : Status) : (s.raise e).ak = s.ak := rfl
@[simp] theorem raise_kl (e : Status) : (s.raise e).kl = s.kl := rfl
@[simp] theorem raise_status (e : Status) : (s.raise e).status = e := rfl
@[simp] theorem raise_rndCount (e : Status) : (s.raise e).rndCount = s.rndCount := rfl
@[simp] theorem raise_getV (e : Status) (q : Reg) : (s.raise e).getV q = s.getV q := rfl
@[simp] theorem raise_readByte (e : Status) (q : Nat) : (s.raise e).readByte q = s.readByte q := rfl

@[simp] theorem forgetError_v : s.forgetError.v = s.v := rfl
@[simp] theorem forgetError_i : s.forgetError.i = s.i := rfl
@[simp] theorem forgetError_pc : s.forgetError.pc = s.pc := rfl
@[simp] theorem forgetError_sp : s.forgetError.sp = s.sp := rfl
@[simp] theorem forgetError_stack : s.forgetError.stack = s.stack := rfl
@[simp] theorem forgetError_dt : s.forgetError.dt = s.dt := rfl
@[simp] theorem forgetError_st : s.forgetError.st = s.st := rfl
@[simp] theorem forgetError_mem : s.forgetError.mem = s.mem := rfl
@[simp] theorem forgetError_fb : s.forgetError.fb = s.fb := rfl
@[simp] theorem forgetError_df : s.forgetError.df = s.df := rfl
@[simp] theorem forgetError_k : s.forgetError.k = s.k := rfl
@[simp] theorem forgetError_ak : s.forgetError.ak = s.ak := rfl
@[simp] theorem forgetError_kl : s.forgetError.kl = s.kl := rfl
@[simp] theorem forgetError_status : s.forgetError.status = .ok := rfl
@[simp] theorem forgetError_rndCount : s.forgetError.rndCount = s.rndCount := rfl
@[simp] theorem forgetError_getV (q : Reg) : s.forgetError.getV q = s.getV q := rfl
@[simp] theorem forgetError_readByte (q : Nat) : s.forgetError.readByte q = s.readByte q := rfl

@[simp] theorem addPc2_v : s.addPc2.v = s.v := rfl
@[simp] theorem addPc2_i : s.addPc2.i = s.i := rfl
@[simp] theorem addPc2_pc : s.addPc2.pc = s.pc + 2 := rfl
@[simp] theorem addPc2_sp : s.addPc2.sp = s.sp := rfl
@[simp] theorem addPc2_stack : s.addPc2.stack = s.stack := rfl
@[simp] theorem addPc2_dt : s.addPc2.dt = s.dt := rfl
@[simp] theorem addPc2_st : s.addPc2.st = s.st := rfl
@[simp] theorem addPc2_mem : s.addPc2.mem = s.mem := rfl
@[simp] theorem addPc2_fb : s.addPc2.fb = s.fb := rfl
@[simp] theorem addPc2_df : s.addPc2.df = s.df := rfl
@[simp] theorem addPc2_k : s.addPc2.k = s.k := rfl
@[simp] theorem addPc2_ak : s.addPc2.ak = s.ak := rfl
@[simp] theorem addPc2_kl : s.addPc2.kl = s.kl := rfl
@[simp] theorem addPc2_status : s.addPc2.status = s.status := rfl
@[simp] theorem addPc2_rndCount : s.addPc2.rndCount = s.rndCount := rfl
@[simp] theorem addPc2_getV (q : Reg) : s.addPc2.getV q = s.getV q := rfl
@[simp] theorem addPc2_readByte (q : Nat) : s.addPc2.readByte q = s.readByte q := rfl

@[simp] theorem tick_v : s.tick.v = s.v := rfl
@[simp] theorem tick_i : s.tick.i = s.i := rfl
@[simp] theorem tick_pc : s.tick.pc = s.pc := rfl
@[simp] theorem tick_sp : s.tick.sp = s.sp := rfl
@[simp] theorem tick_stack : s.tick.stack = s.stack := rfl
@[simp] theorem tick_mem : s.tick.mem = s.mem := rfl
@[simp] theorem tick_fb : s.tick.fb = s.fb := rfl
@[simp] theorem tick_df : s.tick.df = s.df := rfl
@[simp] theorem tick_k : s.tick.k = s.k := rfl
@[simp] theorem tick_ak : s.tick.ak = s.ak := rfl
@[simp] theorem tick_kl : s.tick.kl = s.kl := rfl
@[simp] theorem tick_status : s.tick.status = s.status := rfl
@[simp] theorem tick_rndCount : s.tick.rndCount = s.rndCount := rfl
@[simp] theorem tick_getV (q : Reg) : s.tick.getV q = s.getV q := rfl
@[simp] theorem tick_readByte (q : Nat) : s.tick.readByte q = s.readByte q := rfl

end Sys2Proof.Machine.State
end

