-- ==== Sys2Proof/Laws/Look.lean ====
section
/-! SUPPORT. What every piece of the state holds after each named operation: the lemmas frames are proved with. -/

namespace Sys2Proof.Machine.State

variable (s : State) (p : Part)

@[simp] theorem getV_setV (r q : Reg) (b : Byte) : (s.setV r b).getV q = if q = r then b else s.getV q := by
  simp only [getV, setV_v, Vector.getElem_set, Fin.ext_iff, eq_comm]

theorem readByte_writeByte (a a' : Nat) (b : Byte) (h : Memory.wf s.mem = true) :
    (s.writeByte a b).readByte a' = if a' = a then b else s.readByte a' := Memory.read_write s.mem a a' b h

@[simp] theorem look_setV (r : Reg) (b : Byte) :
    (s.setV r b).look p = if p = .v r then b.toNat else s.look p := by
  cases p <;> simp [look, getV_setV]
  split <;> simp_all

@[simp] theorem look_setI (w : Word) : (s.setI w).look p = if p = .i then w.toNat else s.look p := by
  cases p <;> simp [look]

@[simp] theorem look_setPc (w : Word) : (s.setPc w).look p = if p = .pc then w.toNat else s.look p := by
  cases p <;> simp [look]

@[simp] theorem look_addPc2 : s.addPc2.look p = if p = .pc then (s.pc + 2).toNat else s.look p := by
  rw [addPc2, look_setPc]

@[simp] theorem look_setDT (b : Byte) : (s.setDT b).look p = if p = .dt then b.toNat else s.look p := by
  cases p <;> simp [look]

@[simp] theorem look_setST (b : Byte) : (s.setST b).look p = if p = .st then b.toNat else s.look p := by
  cases p <;> simp [look]

@[simp] theorem look_setK (keys : Keys) : (s.setK keys).look p = if p = .k then keys.toNat else s.look p := by
  cases p <;> simp [look]

@[simp] theorem look_clearDF : s.clearDF.look p = if p = .df then 0 else s.look p := by
  cases p <;> simp [look]

@[simp] theorem look_setAK (a : Option Reg) : (s.setAK a).look p = if p = .ak then akNumber a else s.look p := by
  cases p <;> simp [look]

@[simp] theorem look_latchKeys : s.latchKeys.look p = if p = .kl then s.k.toNat else s.look p := by
  cases p <;> simp [look]

@[simp] theorem look_countRnd : s.countRnd.look p = if p = .rndCount then s.rndCount + 1 else s.look p := by
  cases p <;> simp [look]

@[simp] theorem look_setStatus (e : Status) :
    (s.setStatus e).look p = if p = .status then e.number else s.look p := by
  cases p <;> simp [look]

@[simp] theorem look_raise (e : Status) : (s.raise e).look p = if p = .status then e.number else s.look p :=
  look_setStatus s p e

@[simp] theorem look_forgetError : s.forgetError.look p = if p = .status then 0 else s.look p :=
  look_setStatus s p .ok

@[simp] theorem look_setFlag (f : Bool) : (s.setFlag f).look p = if p = .v 15 then f.toNat else s.look p := by
  cases f <;> simp [setFlag, flagByte, regVF]

@[simp] theorem getV_setFlag (f : Bool) (q : Reg) :
    (s.setFlag f).getV q = if q = 15 then flagByte f else s.getV q := getV_setV s regVF q (flagByte f)

/-- A result, then its flag: VF holds the flag whatever the destination (43_load_alu R143). -/
@[simp] theorem look_setResultThenFlag (x : Reg) (r : Byte) (f : Bool) : (s.setResultThenFlag x r f).look p =
    if p = .v 15 then f.toNat else if p = .v x then r.toNat else s.look p := by
  simp only [setResultThenFlag, look_setFlag, look_setV]

theorem tickTimer_toNat (t : Byte) : (tickTimer t).toNat = t.toNat - 1 := by
  unfold tickTimer
  split
  · bv_omega
  · omega

@[simp] theorem tick_dt : s.tick.dt.toNat = s.dt.toNat - 1 := tickTimer_toNat s.dt

@[simp] theorem tick_st : s.tick.st.toNat = s.st.toNat - 1 := tickTimer_toNat s.st

@[simp] theorem look_tick : s.tick.look p =
    if p = .dt then s.dt.toNat - 1 else if p = .st then s.st.toNat - 1 else s.look p := by
  simp only [tick, look_setST, look_setDT, tickTimer_toNat]
  split <;> split <;> simp_all

/-- A new framebuffer shown: DF is set, nothing but the pixels and DF changes. -/
theorem look_display_frame (fb : Screen) (h1 : ∀ xx yy, p ≠ .pixel xx yy) (h2 : p ≠ .df) :
    (s.display fb).look p = s.look p := by
  cases p <;> simp_all [look]

@[simp] theorem look_display_pixel (fb : Screen) (xx : Fin 64) (yy : Fin 32) :
    (s.display fb).look (.pixel xx yy) = (pixelOf fb xx yy).toNat := rfl

@[simp] theorem look_display_df (fb : Screen) : (s.display fb).look .df = 1 := rfl

theorem look_writeByte (a : Fin 4096) (b : Byte) (h : Memory.wf s.mem = true) :
    (s.writeByte a.val b).look p = if p = .mem a then b.toNat else s.look p := by
  cases p <;> simp [look, readByte_writeByte _ _ _ _ h]
  split <;> simp_all [Fin.ext_iff]

end Sys2Proof.Machine.State
end

