-- ==== Sys2Proof/Laws/Ops.lean ====
section
/-! SUPPORT. One lemma per shared operation: all it can do. -/

namespace Sys2Proof.Machine.State

/-! ### Block reads and writes -/

/-- A block write keeps memory canonical. -/
theorem memWrite_wf (bs : List Byte) : ∀ addr (s : State), Memory.wf s.mem = true →
    Memory.wf (memWrite addr bs s).mem = true := by
  induction bs with
  | nil => intro addr s h; exact h
  | cons b bs ih => intro addr s h; exact ih _ _ (Memory.wf_write _ _ _ h (Nat.mod_lt _ (by decide)))

/-- A block write changes nothing but memory. -/
theorem memWrite_look (bs : List Byte) : ∀ addr (s : State) (p : Part), (∀ a, p ≠ .mem a) →
    (memWrite addr bs s).look p = s.look p := by
  induction bs with
  | nil => intros; rfl
  | cons b bs ih =>
    intro addr s p hp
    rw [memWrite, ih _ _ _ hp]
    cases p <;> simp_all [look]

@[simp] theorem memWrite_i (bs : List Byte) : ∀ addr (s : State), (memWrite addr bs s).i = s.i := by
  induction bs with
  | nil => intros; rfl
  | cons b bs ih => intro addr s; rw [memWrite, ih]; rfl

@[simp] theorem memWrite_pc (bs : List Byte) : ∀ addr (s : State), (memWrite addr bs s).pc = s.pc := by
  induction bs with
  | nil => intros; rfl
  | cons b bs ih => intro addr s; rw [memWrite, ih]; rfl

@[simp] theorem memWrite_v (bs : List Byte) : ∀ addr (s : State), (memWrite addr bs s).v = s.v := by
  induction bs with
  | nil => intros; rfl
  | cons b bs ih => intro addr s; rw [memWrite, ih]; rfl

@[simp] theorem memWrite_ak (bs : List Byte) : ∀ addr (s : State), (memWrite addr bs s).ak = s.ak := by
  induction bs with
  | nil => intros; rfl
  | cons b bs ih => intro addr s; rw [memWrite, ih]; rfl

@[simp] theorem memWrite_stack (bs : List Byte) : ∀ addr (s : State), (memWrite addr bs s).stack = s.stack := by
  induction bs with
  | nil => intros; rfl
  | cons b bs ih => intro addr s; rw [memWrite, ih]; rfl

@[simp] theorem memWrite_status (bs : List Byte) : ∀ addr (s : State), (memWrite addr bs s).status = s.status := by
  induction bs with
  | nil => intros; rfl
  | cons b bs ih => intro addr s; rw [memWrite, ih]; rfl

/-- Outside the bytes written, every byte reads as before, whatever form memory is in. -/
theorem memWrite_readByte_outside (bs : List Byte) : ∀ addr (s : State) (a : Nat),
    (∀ j, j < bs.length → a ≠ (addr + j) % 4096) → (memWrite addr bs s).readByte a = s.readByte a := by
  induction bs with
  | nil => intros; rfl
  | cons b bs ih =>
    intro addr s a ha
    rw [memWrite, ih]
    · exact Memory.read_write_ne s.mem _ _ b (by simpa using ha 0 (by simp))
    · intro j hj
      have := ha (j + 1) (by simpa using hj)
      rwa [show addr + 1 + j = addr + (j + 1) by omega]

/-- The frame of a block write: a part that is none of the bytes written looks as before. -/
theorem memWrite_frame (bs : List Byte) (addr : Nat) (s : State) (p : Part)
    (h : ∀ (a : Fin 4096) (j : Nat), j < bs.length → a.val = (addr + j) % 4096 → p ≠ .mem a) :
    (memWrite addr bs s).look p = s.look p := by
  cases p with
  | mem a => exact congrArg BitVec.toNat (memWrite_readByte_outside bs addr s a.val fun j hj e => h a j hj e rfl)
  | _ => exact memWrite_look bs addr s _ (by simp)

/-- The byte written at offset j reads back, for a block of at most 4096 bytes. -/
theorem memWrite_readByte_inside (bs : List Byte) : ∀ addr (s : State) (j : Nat), Memory.wf s.mem = true →
    bs.length ≤ 4096 → (hj : j < bs.length) → (memWrite addr bs s).readByte ((addr + j) % 4096) = bs[j] := by
  induction bs with
  | nil => intro _ _ j _ _ hj; exact absurd hj (by simp)
  | cons b bs ih =>
    intro addr s j h hl hj
    have hm : addr % 4096 < 4096 := Nat.mod_lt _ (by decide)
    simp only [List.length_cons] at hl hj
    cases j with
    | zero =>
      rw [memWrite, memWrite_readByte_outside, readByte_writeByte _ _ _ _ h]
      · simp
      · intro k hk; omega
    | succ j =>
      have := ih (addr + 1) (s.writeByte (addr % 4096) b) j (Memory.wf_write _ _ _ h hm) (by omega) (by omega)
      rw [memWrite, ← show addr + 1 + j = addr + (j + 1) by omega, this]
      rfl

@[simp] theorem memRead_length (n : Nat) : ∀ (s : State) addr, (s.memRead addr n).length = n := by
  induction n with
  | zero => intros; rfl
  | succ n ih => intro s addr; simp [memRead, ih]

/-- Byte j of a block read. -/
theorem memRead_getElem (n : Nat) : ∀ (s : State) addr j (h : j < (s.memRead addr n).length),
    (s.memRead addr n)[j] = s.readByte ((addr + j) % 4096) := by
  induction n with
  | zero => intro s addr j h; exact absurd h (by simp)
  | succ n ih =>
    intro s addr j h
    cases j with
    | zero => rfl
    | succ j =>
      simp only [memRead, List.getElem_cons_succ, ih]
      congr 2; omega

@[simp] theorem regsUpTo_length (s : State) (x : Reg) : (s.regsUpTo x).length = x.val + 1 := by
  simp only [regsUpTo, List.length_take, Vector.length_toList]; omega

theorem regsUpTo_getElem (s : State) (x : Reg) (j : Reg) (h : j.val < (s.regsUpTo x).length) :
    (s.regsUpTo x)[j.val] = s.getV j := by
  simp [regsUpTo, getV]

/-! ### Loading registers -/

/-- `loadRegs` writes the registers j, j + 1, ... with the bytes in order and nothing else. -/
theorem loadRegs_look (bs : List Byte) : ∀ j (s : State) (p : Part), (loadRegs j bs s).look p =
    match p with
    | .v r => if h : j ≤ r.val ∧ r.val - j < bs.length then (bs[r.val - j]).toNat else s.look (.v r)
    | p => s.look p := by
  induction bs with
  | nil => intro j s p; cases p <;> simp [loadRegs]
  | cons b bs ih =>
    intro j s p
    unfold loadRegs
    split
    · rename_i hj
      rw [ih]
      cases p <;> simp only [look_setV, reduceCtorEq, if_false, Part.v.injEq, List.length_cons]
      rename_i r
      by_cases hr : r.val = j
      · have : r = ⟨j, hj⟩ := Fin.ext hr
        subst this
        simp
      · have hne : ¬ (r = ⟨j, hj⟩) := fun h => hr (by rw [h])
        rw [if_neg hne]
        by_cases hlt : j + 1 ≤ r.val ∧ r.val - (j + 1) < bs.length
        · rw [dif_pos hlt, dif_pos (by omega)]
          have : r.val - j = (r.val - (j + 1)) + 1 := by omega
          simp only [this, List.getElem_cons_succ]
        · rw [dif_neg hlt, dif_neg (by omega)]
    · cases p <;> simp only
      rename_i r
      have := r.isLt
      rw [dif_neg (by omega)]

/-! ### The stack -/

/-- A push succeeds exactly below depth 16 and then changes SP and the entry at SP only. -/
theorem push_spec (w : Word) (s : State) :
    (s.sp.val = 16 ∧ s.push w = none) ∨ (s.sp.val < 16 ∧ ∃ t, s.push w = some t ∧ t.sp.val = s.sp.val + 1 ∧
      (∀ p, t.look p = match p with
        | .sp => s.sp.val + 1
        | .stack j => if j.val = s.sp.val then w.toNat else s.look (.stack j)
        | p => s.look p) ∧ t.mem = s.mem ∧ t.i = s.i) := by
  have hs := s.sp.isLt
  unfold push
  by_cases h : s.sp.val < 16
  · right
    rw [dif_pos h]
    refine ⟨h, _, rfl, rfl, ?_, rfl, rfl⟩
    intro p
    cases p <;> simp [look, Vector.getElem_set, getV, readByte, eq_comm]
    split <;> simp_all
  · left
    exact ⟨by omega, dif_neg h⟩

/-- A pop succeeds exactly on a nonempty stack, gives the topmost entry, and changes SP only. -/
theorem pop_spec (s : State) :
    (s.sp.val = 0 ∧ s.pop = none) ∨ (0 < s.sp.val ∧ ∃ w t, s.pop = some (w, t) ∧
      (∀ j : Fin 16, j.val + 1 = s.sp.val → w = s.stack[j.val]) ∧ t.sp.val + 1 = s.sp.val ∧
      (∀ p, p ≠ .sp → t.look p = s.look p) ∧ t.mem = s.mem ∧ t.i = s.i ∧ t.stack = s.stack) := by
  unfold pop
  by_cases h : s.sp.val = 0
  · left; exact ⟨h, dif_pos h⟩
  · right
    rw [dif_neg h]
    refine ⟨by omega, _, _, rfl, ?_, ?_, ?_, rfl, rfl, rfl⟩
    · intro j hj
      simp only [← hj, Nat.add_sub_cancel]
    · simp only; omega
    · intro p hp
      cases p <;> simp_all [look, getV, readByte]

/-! ### The fetch and the end of a step -/

/-- The fetch fails exactly when PC + 1 is out of bounds, else gives the big-endian word at PC (40_step_cycle R93). -/
theorem fetch_spec (s : State) :
    (4096 ≤ s.pc.toNat + 1 ∧ s.fetch = none) ∨
    (s.pc.toNat + 1 < 4096 ∧ s.fetch = some (wordOfBytes (s.readByte s.pc.toNat) (s.readByte (s.pc.toNat + 1)))) := by
  unfold fetch
  split
  · left; exact ⟨by omega, rfl⟩
  · right; exact ⟨by omega, rfl⟩

theorem finish_ok (s : State) (h : s.status = .ok) : s.finish = s.tick := if_pos h

theorem finish_error (s : State) (h : s.status ≠ .ok) : s.finish = s := if_neg h

@[simp] theorem forgetError_idem (s : State) (e : Status) : (s.setStatus e).forgetError = s.forgetError := rfl

end Sys2Proof.Machine.State

namespace Sys2Proof.Machine

/-! ### Skips and the key pick -/

/-- A skip writes nothing but PC (42_skip R120). -/
@[simp] theorem skipIf_look (c : Bool) (s : State) (p : Part) :
    (skipIf c s).look p = if p = .pc then (if c then s.pc + 2 else s.pc).toNat else s.look p := by
  cases c <;> simp [skipIf]
  intro h; subst h; rfl

@[simp] theorem skipIf_pc (c : Bool) (s : State) : (skipIf c s).pc = if c then s.pc + 2 else s.pc := by
  cases c <;> rfl

/-- `pickKey` gives the lowest-numbered key of the set, and `none` only for the empty set (46_timer_key R179). -/
theorem pickKey_spec (new : Keys) :
    (∃ key, pickKey new = some key ∧ new.getLsbD key.val = true ∧ ∀ j : Key, j < key → new.getLsbD j.val = false) ∨
    (pickKey new = none ∧ new = 0) := by
  unfold pickKey
  cases h : (List.finRange 16).find? (fun key : Key => new.getLsbD key.val) with
  | none =>
    right
    refine ⟨rfl, ?_⟩
    rw [List.find?_eq_none] at h
    apply BitVec.eq_of_getLsbD_eq
    intro i hi
    simpa using h ⟨i, hi⟩ (List.mem_finRange _)
  | some key =>
    left
    refine ⟨key, rfl, ?_, ?_⟩
    · simpa using List.find?_some h
    · intro j hj
      rw [List.find?_eq_some_iff_getElem] at h
      obtain ⟨-, n, hn, hk, hlt⟩ := h
      simp only [List.getElem_finRange] at hk
      have hj' : j.val < n := by
        have : key.val = n := by rw [← hk]; rfl
        have : j.val < key.val := hj
        omega
      simpa using hlt j.val hj'

end Sys2Proof.Machine
end

