-- ==== Sys2Proof/Laws/Display.lean ====
section
/-! SUPPORT. What drawing does to each pixel, and when it collides (45_display R167). -/

namespace Sys2Proof.Machine

/-- Inverting a pixel inverts it. -/
theorem pixelOf_flipPixel_self (fb : Screen) (xx : Fin 64) (yy : Fin 32) :
    pixelOf (flipPixel fb xx yy) xx yy = !pixelOf fb xx yy := by
  simp [pixelOf, flipPixel]

/-- Inverting a pixel leaves every other pixel alone. -/
theorem pixelOf_flipPixel_ne (fb : Screen) (xx xx' : Fin 64) (yy yy' : Fin 32) (h : ¬ (xx' = xx ∧ yy' = yy)) :
    pixelOf (flipPixel fb xx yy) xx' yy' = pixelOf fb xx' yy' := by
  simp only [pixelOf, flipPixel, Vector.getElem_set]
  by_cases hy : yy.val = yy'.val
  · have : yy = yy' := Fin.ext hy
    subst this
    have hx : ¬ xx'.val = xx.val := fun e => h ⟨Fin.ext e, rfl⟩
    simp [hx]
  · simp [hy]

theorem pixelOf_blankScreen (xx : Fin 64) (yy : Fin 32) : pixelOf blankScreen xx yy = false := by
  simp [pixelOf, blankScreen]

/-- The first k columns of a sprite row with byte b at column x0 have a 1 bit at column xx. -/
def rowHits (b : Byte) (x0 k : Nat) (xx : Fin 64) : Prop :=
  ∃ c, c < k ∧ b.getLsbD (7 - c) = true ∧ xx.val = (x0 + c) % 64

theorem rowHits_succ (b : Byte) (x0 k : Nat) (xx : Fin 64) :
    rowHits b x0 (k + 1) xx ↔ rowHits b x0 k xx ∨ (b.getLsbD (7 - k) = true ∧ xx = Fin.ofNat 64 (x0 + k)) := by
  constructor
  · rintro ⟨c, hc, hb, hx⟩
    rcases Nat.lt_succ_iff_lt_or_eq.mp hc with h | h
    · exact .inl ⟨c, h, hb, hx⟩
    · subst h; exact .inr ⟨hb, Fin.ext hx⟩
  · rintro (⟨c, hc, h⟩ | ⟨hb, rfl⟩)
    · exact ⟨c, by omega, h⟩
    · exact ⟨k, by omega, hb, rfl⟩

/-- The first k ≤ 8 columns of a sprite row: each pixel they hit is inverted, and a collision is noted if one of them
was lit. -/
theorem drawCols_spec (b : Byte) (x0 : Nat) (yy : Fin 32) (p q : Screen × Bool) (k : Nat) (hk : k ≤ 8)
    (hq : (List.range k).foldl
      (fun q c => if b.getLsbD (7 - c) then drawPixel (Fin.ofNat 64 (x0 + c)) yy q else q) p = q) :
    (∀ xx', rowHits b x0 k xx' → pixelOf q.1 xx' yy = !pixelOf p.1 xx' yy) ∧
    (∀ xx' yy', ¬ (rowHits b x0 k xx' ∧ yy' = yy) → pixelOf q.1 xx' yy' = pixelOf p.1 xx' yy') ∧
    (q.2 = true ↔ p.2 = true ∨ ∃ xx', rowHits b x0 k xx' ∧ pixelOf p.1 xx' yy = true) := by
  induction k generalizing q with
  | zero =>
    subst hq
    simp [rowHits]
  | succ k ih =>
    obtain ⟨ih1, ih2, ih3⟩ := ih _ (by omega) rfl
    simp only [List.range_succ, List.foldl_append, List.foldl_cons, List.foldl_nil] at hq
    generalize (List.range k).foldl _ p = q' at ih1 ih2 ih3 hq
    by_cases hb : b.getLsbD (7 - k) = true
    · rw [if_pos hb] at hq
      subst hq
      have hnew : ¬ rowHits b x0 k (Fin.ofNat 64 (x0 + k)) := by
        rintro ⟨c, hc, -, h⟩
        have : (x0 + k) % 64 = (x0 + c) % 64 := h
        omega
      have hlit := ih2 (Fin.ofNat 64 (x0 + k)) yy fun h => hnew h.1
      refine ⟨?_, ?_, ?_⟩
      · intro xx' h
        rcases (rowHits_succ _ _ _ _).1 h with h | ⟨-, rfl⟩
        · have hne : ¬ (xx' = Fin.ofNat 64 (x0 + k) ∧ yy = yy) := fun e => hnew (by rw [← e.1]; exact h)
          rw [drawPixel, pixelOf_flipPixel_ne _ _ _ _ _ hne, ih1 _ h]
        · rw [drawPixel, pixelOf_flipPixel_self, hlit]
      · intro xx' yy' h
        rw [rowHits_succ] at h
        rw [drawPixel, pixelOf_flipPixel_ne _ _ _ _ _ fun e => h ⟨.inr ⟨hb, e.1⟩, e.2⟩,
          ih2 _ _ fun e => h ⟨.inl e.1, e.2⟩]
      · simp only [drawPixel, Bool.or_eq_true, ih3, hlit, rowHits_succ]
        constructor
        · rintro ((h | ⟨xx', h, hp⟩) | h)
          · exact .inl h
          · exact .inr ⟨xx', .inl h, hp⟩
          · exact .inr ⟨_, .inr ⟨hb, rfl⟩, h⟩
        · rintro (h | ⟨xx', h | ⟨-, rfl⟩, hp⟩)
          · exact .inl (.inl h)
          · exact .inl (.inr ⟨xx', h, hp⟩)
          · exact .inr hp
    · rw [if_neg hb] at hq
      subst hq
      have hsame : ∀ xx', rowHits b x0 (k + 1) xx' ↔ rowHits b x0 k xx' := by
        intro xx'; rw [rowHits_succ]; exact ⟨fun h => h.resolve_right fun e => hb e.1, .inl⟩
      simp only [hsame]
      exact ⟨ih1, ih2, ih3⟩

/-- Drawing one sprite row. -/
theorem drawRow_spec (b : Byte) (x0 : Nat) (yy : Fin 32) (p : Screen × Bool) :
    (∀ xx', rowHits b x0 8 xx' → pixelOf (drawRow b x0 yy p).1 xx' yy = !pixelOf p.1 xx' yy) ∧
    (∀ xx' yy', ¬ (rowHits b x0 8 xx' ∧ yy' = yy) → pixelOf (drawRow b x0 yy p).1 xx' yy' = pixelOf p.1 xx' yy') ∧
    ((drawRow b x0 yy p).2 = true ↔ p.2 = true ∨ ∃ xx', rowHits b x0 8 xx' ∧ pixelOf p.1 xx' yy = true) :=
  drawCols_spec b x0 yy p _ 8 (Nat.le_refl 8) rfl

theorem spriteHits_succ (s : State) (x0 y0 n : Nat) (xx : Fin 64) (yy : Fin 32) :
    s.spriteHits x0 y0 (n + 1) xx yy ↔ s.spriteHits x0 y0 n xx yy ∨
      (rowHits (s.readByte (s.effAddr n)) x0 8 xx ∧ yy = Fin.ofNat 32 (y0 + n)) := by
  constructor
  · rintro ⟨r, c, hr, hc, hb, hx, hy⟩
    rcases Nat.lt_succ_iff_lt_or_eq.mp hr with h | h
    · exact .inl ⟨r, c, h, hc, hb, hx, hy⟩
    · subst h; exact .inr ⟨⟨c, hc, hb, hx⟩, Fin.ext hy⟩
  · rintro (⟨r, c, hr, h⟩ | ⟨⟨c, hc, hb, hx⟩, rfl⟩)
    · exact ⟨r, c, by omega, h⟩
    · exact ⟨n, c, by omega, hc, hb, hx, rfl⟩

theorem drawSprite_succ (s : State) (x0 y0 n : Nat) : drawSprite s x0 y0 (n + 1) =
    drawRow (s.readByte (s.effAddr n)) x0 (Fin.ofNat 32 (y0 + n)) (drawSprite s x0 y0 n) := by
  simp only [drawSprite, List.range_succ, List.foldl_append, List.foldl_cons, List.foldl_nil]

/-- A pixel the sprite does not hit is left alone, whatever the number of rows. -/
theorem drawSprite_miss (s : State) (x0 y0 n : Nat) (xx : Fin 64) (yy : Fin 32) (h : ¬ s.spriteHits x0 y0 n xx yy) :
    pixelOf (drawSprite s x0 y0 n).1 xx yy = pixelOf s.fb xx yy := by
  induction n with
  | zero => rfl
  | succ n ih =>
    rw [spriteHits_succ, not_or] at h
    rw [drawSprite_succ, (drawRow_spec _ x0 _ _).2.1 _ _ h.2, ih h.1]

/-- Drawing a sprite of at most 32 rows: every pixel it hits is inverted, every other pixel is left alone, and there is
a collision exactly if a pixel it hits was lit. -/
theorem drawSprite_spec (s : State) (x0 y0 n : Nat) (hn : n ≤ 32) :
    (∀ xx yy, s.spriteHits x0 y0 n xx yy → pixelOf (drawSprite s x0 y0 n).1 xx yy = !pixelOf s.fb xx yy) ∧
    (∀ xx yy, ¬ s.spriteHits x0 y0 n xx yy → pixelOf (drawSprite s x0 y0 n).1 xx yy = pixelOf s.fb xx yy) ∧
    ((drawSprite s x0 y0 n).2 = true ↔ ∃ xx yy, s.spriteHits x0 y0 n xx yy ∧ pixelOf s.fb xx yy = true) := by
  induction n with
  | zero => simp [State.spriteHits, drawSprite]
  | succ n ih =>
    obtain ⟨ih1, ih2, ih3⟩ := ih (by omega)
    obtain ⟨hr1, hr2, hr3⟩ :=
      drawRow_spec (s.readByte (s.effAddr n)) x0 (Fin.ofNat 32 (y0 + n)) (drawSprite s x0 y0 n)
    rw [← drawSprite_succ] at hr1 hr2 hr3
    -- the rows above do not touch this row
    have hmiss : ∀ xx, ¬ s.spriteHits x0 y0 n xx (Fin.ofNat 32 (y0 + n)) := by
      rintro xx ⟨r, c, hr, hc, -, -, hy⟩
      have : (y0 + n) % 32 = (y0 + r) % 32 := hy
      omega
    have hrow := fun xx => ih2 xx _ (hmiss xx)
    refine ⟨?_, ?_, ?_⟩
    · intro xx yy h
      rcases (spriteHits_succ _ _ _ _ _ _).1 h with h' | ⟨h', rfl⟩
      · rw [hr2 _ _ fun e => hmiss xx (e.2 ▸ h'), ih1 _ _ h']
      · rw [hr1 _ h', hrow]
    · exact fun xx yy => drawSprite_miss s x0 y0 (n + 1) xx yy
    · simp only [hr3, ih3, spriteHits_succ, hrow]
      constructor
      · rintro (⟨xx, yy, h, hp⟩ | ⟨xx, h, hp⟩)
        · exact ⟨xx, yy, .inl h, hp⟩
        · exact ⟨xx, _, .inr ⟨h, rfl⟩, hp⟩
      · rintro ⟨xx, yy, h | ⟨h, rfl⟩, hp⟩
        · exact .inl ⟨xx, yy, h, hp⟩
        · exact .inr ⟨xx, h, hp⟩

end Sys2Proof.Machine
end

