-- ==== Sys2Proof/Laws/Encoding.lean ====
section
/-! SUPPORT. The fields of an encoded word, format by format, and the fields of any word put together again. -/

namespace Sys2Proof

theorem encodeA_toNat (fam : Nat) (nnn : Addr) (hf : fam < 16) :
    (encodeA fam nnn).toNat = 0x1000 * fam + nnn.toNat := by
  have := nnn.isLt
  simp only [encodeA, BitVec.toNat_ofNat]; omega

theorem encodeXK_toNat (fam : Nat) (x : Reg) (kk : Byte) (hf : fam < 16) :
    (encodeXK fam x kk).toNat = 0x1000 * fam + 0x100 * x.val + kk.toNat := by
  have := kk.isLt; have := x.isLt
  simp only [encodeXK, BitVec.toNat_ofNat]; omega

theorem encodeXYN_toNat (fam : Nat) (x y : Reg) (n : Nat) (hf : fam < 16) (hn : n < 16) :
    (encodeXYN fam x y n).toNat = 0x1000 * fam + 0x100 * x.val + 0x10 * y.val + n := by
  have := x.isLt; have := y.isLt
  simp only [encodeXYN, BitVec.toNat_ofNat]; omega

theorem fieldFam_encodeA (fam : Nat) (nnn : Addr) (hf : fam < 16) : fieldFam (encodeA fam nnn) = fam := by
  have := nnn.isLt
  rw [fieldFam, encodeA_toNat _ _ hf]; omega

theorem fieldNNN_encodeA (fam : Nat) (nnn : Addr) (hf : fam < 16) : fieldNNN (encodeA fam nnn) = nnn := by
  have := nnn.isLt
  apply BitVec.eq_of_toNat_eq
  rw [fieldNNN, encodeA_toNat _ _ hf, BitVec.toNat_ofNat]; omega

theorem fieldFam_encodeXK (fam : Nat) (x : Reg) (kk : Byte) (hf : fam < 16) :
    fieldFam (encodeXK fam x kk) = fam := by
  have := kk.isLt; have := x.isLt
  rw [fieldFam, encodeXK_toNat _ _ _ hf]; omega

theorem fieldX_encodeXK (fam : Nat) (x : Reg) (kk : Byte) (hf : fam < 16) : fieldX (encodeXK fam x kk) = x := by
  have := kk.isLt; have := x.isLt
  apply Fin.ext
  simp only [fieldX, encodeXK_toNat _ _ _ hf, Fin.val_ofNat]; omega

theorem fieldKK_encodeXK (fam : Nat) (x : Reg) (kk : Byte) (hf : fam < 16) : fieldKK (encodeXK fam x kk) = kk := by
  have := kk.isLt; have := x.isLt
  apply BitVec.eq_of_toNat_eq
  rw [fieldKK, encodeXK_toNat _ _ _ hf, BitVec.toNat_ofNat]; omega

theorem fieldFam_encodeXYN (fam : Nat) (x y : Reg) (n : Nat) (hf : fam < 16) (hn : n < 16) :
    fieldFam (encodeXYN fam x y n) = fam := by
  have := x.isLt; have := y.isLt
  rw [fieldFam, encodeXYN_toNat _ _ _ _ hf hn]; omega

theorem fieldX_encodeXYN (fam : Nat) (x y : Reg) (n : Nat) (hf : fam < 16) (hn : n < 16) :
    fieldX (encodeXYN fam x y n) = x := by
  have := x.isLt; have := y.isLt
  apply Fin.ext
  simp only [fieldX, encodeXYN_toNat _ _ _ _ hf hn, Fin.val_ofNat]; omega

theorem fieldY_encodeXYN (fam : Nat) (x y : Reg) (n : Nat) (hf : fam < 16) (hn : n < 16) :
    fieldY (encodeXYN fam x y n) = y := by
  have := x.isLt; have := y.isLt
  apply Fin.ext
  simp only [fieldY, encodeXYN_toNat _ _ _ _ hf hn, Fin.val_ofNat]; omega

theorem fieldN_encodeXYN (fam : Nat) (x y : Reg) (n : Nat) (hf : fam < 16) (hn : n < 16) :
    fieldN (encodeXYN fam x y n) = n := by
  have := x.isLt; have := y.isLt
  rw [fieldN, encodeXYN_toNat _ _ _ _ hf hn]; omega

theorem fieldFam_lt (op : Word) : fieldFam op < 16 := by
  have := op.isLt
  rw [fieldFam]; omega

theorem fieldN_lt (op : Word) : fieldN op < 16 := Nat.mod_lt _ (by decide)

theorem encodeA_fields (op : Word) : encodeA (fieldFam op) (fieldNNN op) = op := by
  have := op.isLt
  apply BitVec.eq_of_toNat_eq
  rw [encodeA_toNat _ _ (fieldFam_lt op), fieldFam, fieldNNN, BitVec.toNat_ofNat]; omega

theorem encodeXK_fields (op : Word) : encodeXK (fieldFam op) (fieldX op) (fieldKK op) = op := by
  have := op.isLt
  apply BitVec.eq_of_toNat_eq
  rw [encodeXK_toNat _ _ _ (fieldFam_lt op), fieldFam, fieldX, fieldKK, BitVec.toNat_ofNat, Fin.val_ofNat]; omega

theorem encodeXYN_fields (op : Word) : encodeXYN (fieldFam op) (fieldX op) (fieldY op) (fieldN op) = op := by
  have := op.isLt
  apply BitVec.eq_of_toNat_eq
  rw [encodeXYN_toNat _ _ _ _ (fieldFam_lt op) (fieldN_lt op), fieldFam, fieldX, fieldY, fieldN, Fin.val_ofNat,
    Fin.val_ofNat]
  omega

theorem wordOfBytes_toNat (hi lo : Byte) : (wordOfBytes hi lo).toNat = hi.toNat * 256 + lo.toNat := by
  have := hi.isLt; have := lo.isLt
  rw [wordOfBytes, BitVec.toNat_append, ← Nat.shiftLeft_add_eq_or_of_lt (by omega), Nat.shiftLeft_eq]

/-- Taking a word apart into its bytes and putting it together again gives the word. -/
theorem wordOfBytes_bytesOfWord (op : Word) :
    wordOfBytes (op.extractLsb' 8 8) (op.extractLsb' 0 8) = op := by
  have := op.isLt
  apply BitVec.eq_of_toNat_eq
  rw [wordOfBytes_toNat, BitVec.extractLsb'_toNat, BitVec.extractLsb'_toNat, Nat.shiftRight_eq_div_pow]
  simp; omega

/-- The family nibble compared under the mask 0xF000 (30_encoding R75). -/
theorem and_F000 (op : Word) : op &&& 0xF000 = BitVec.ofNat 16 (0x1000 * fieldFam op) := by
  apply BitVec.eq_of_getLsbD_eq
  intro i hi
  have h : ∀ j : Fin 16, (0xF000 : Word).getLsbD j.val = decide (12 ≤ j.val) := by decide
  have h' := h ⟨i, hi⟩
  simp only [BitVec.getLsbD_and, BitVec.getLsbD_ofNat, fieldFam] at h' ⊢
  rw [h', show (0x1000 : Nat) = 2 ^ 12 by decide, Nat.testBit_two_pow_mul, Nat.testBit_div_two_pow]
  by_cases h12 : 12 ≤ i
  · simp [hi, h12, BitVec.getLsbD]
  · simp [h12]

/-- The trailing byte compared under the mask 0x00FF. -/
theorem and_00FF (op : Word) : op &&& 0x00FF = (fieldKK op).setWidth 16 := by
  apply BitVec.eq_of_getLsbD_eq
  intro i hi
  have h : ∀ j : Fin 16, (0x00FF : Word).getLsbD j.val = decide (j.val < 8) := by decide
  have h' := h ⟨i, hi⟩
  simp only [BitVec.getLsbD_and, BitVec.getLsbD_setWidth, fieldKK, BitVec.getLsbD_ofNat] at h' ⊢
  rw [h']
  by_cases h8 : i < 8
  · simp [hi, h8, BitVec.getLsbD]
  · simp [h8]

/-- The trailing nibble compared under the mask 0x000F. -/
theorem and_000F (op : Word) : op &&& 0x000F = BitVec.ofNat 16 (fieldN op) := by
  apply BitVec.eq_of_getLsbD_eq
  intro i hi
  have h : ∀ j : Fin 16, (0x000F : Word).getLsbD j.val = decide (j.val < 4) := by decide
  have h' := h ⟨i, hi⟩
  simp only [BitVec.getLsbD_and, BitVec.getLsbD_ofNat, fieldN] at h' ⊢
  rw [h', show op.toNat % 0x10 = op.toNat % 2 ^ 4 from rfl, Nat.testBit_mod_two_pow]
  by_cases h4 : i < 4
  · simp [hi, h4, BitVec.getLsbD]
  · simp [h4]

/-- Masks 0xF0FF and 0xF00F by their two parts. -/
theorem and_F0FF (op : Word) :
    op &&& 0xF0FF = BitVec.ofNat 16 (0x1000 * fieldFam op) ||| (fieldKK op).setWidth 16 := by
  rw [← and_F000, ← and_00FF, ← BitVec.and_or_distrib_left]; rfl

theorem and_F00F (op : Word) :
    op &&& 0xF00F = BitVec.ofNat 16 (0x1000 * fieldFam op) ||| BitVec.ofNat 16 (fieldN op) := by
  rw [← and_F000, ← and_000F, ← BitVec.and_or_distrib_left]; rfl

/-- The bytes of an instruction decode to what its word decodes to. -/
theorem decodeBytes_bytesOfWord (op : Word) (rest : List Byte) :
    decodeBytes (bytesOfWord op ++ rest) =
      match decodeWord op with
      | some i => .instr i rest
      | none => .unknownOpcode op rest := by
  cases h : decodeWord op <;>
    simp only [bytesOfWord, List.cons_append, List.nil_append, decodeBytes, wordOfBytes_bytesOfWord, h]

end Sys2Proof
end

