-- ==== Sys2Proof/Laws/PerInstr.lean ====
section
/-! SUPPORT. Statements made instruction by instruction. Family OpcodeRow: the word of a well-formed instruction is in
the instruction's own row of the opcode table (30_encoding R75). -/

namespace Sys2Proof.Laws.OpcodeRow

/-- `encode i & mask = match` for the row of i. -/
def Statement (i : Instr) : Prop := WellFormed i = true → encode i &&& (opcodeRow i).1 = (opcodeRow i).2

/-! One lemma per format (30_encoding R71). -/

theorem formatA (fam : Nat) (nnn : Addr) (hf : fam < 16) :
    encodeA fam nnn &&& 0xF000 = BitVec.ofNat 16 (0x1000 * fam) := by
  rw [and_F000, fieldFam_encodeA _ _ hf]

theorem formatXK (fam : Nat) (x : Reg) (kk : Byte) (hf : fam < 16) :
    encodeXK fam x kk &&& 0xF000 = BitVec.ofNat 16 (0x1000 * fam) := by
  rw [and_F000, fieldFam_encodeXK _ _ _ hf]

theorem formatXS (fam : Nat) (x : Reg) (sub : Byte) (hf : fam < 16) :
    encodeXK fam x sub &&& 0xF0FF = BitVec.ofNat 16 (0x1000 * fam) ||| sub.setWidth 16 := by
  rw [and_F0FF, fieldFam_encodeXK _ _ _ hf, fieldKK_encodeXK _ _ _ hf]

theorem formatXY (fam : Nat) (x y : Reg) (n : Nat) (hf : fam < 16) (hn : n < 16) :
    encodeXYN fam x y n &&& 0xF00F = BitVec.ofNat 16 (0x1000 * fam) ||| BitVec.ofNat 16 n := by
  rw [and_F00F, fieldFam_encodeXYN _ _ _ _ hf hn, fieldN_encodeXYN _ _ _ _ hf hn]

theorem formatXYN (fam : Nat) (x y : Reg) (n : Nat) (hf : fam < 16) (hn : n < 16) :
    encodeXYN fam x y n &&& 0xF000 = BitVec.ofNat 16 (0x1000 * fam) := by
  rw [and_F000, fieldFam_encodeXYN _ _ _ _ hf hn]

/-! One lemma per instruction. -/

theorem cls : Statement .cls := fun _ => rfl

theorem ret : Statement .ret := fun _ => rfl

theorem jpAddr (nnn : Addr) : Statement (.jpAddr nnn) := fun _ => formatA 0x1 nnn (by decide)

theorem callAddr (nnn : Addr) : Statement (.callAddr nnn) := fun _ => formatA 0x2 nnn (by decide)

theorem seVxByte (x : Reg) (kk : Byte) : Statement (.seVxByte x kk) := fun _ => formatXK 0x3 x kk (by decide)

theorem sneVxByte (x : Reg) (kk : Byte) : Statement (.sneVxByte x kk) := fun _ => formatXK 0x4 x kk (by decide)

theorem seVxVy (x y : Reg) : Statement (.seVxVy x y) := fun _ => formatXY 0x5 x y 0x0 (by decide) (by decide)

theorem ldVxByte (x : Reg) (kk : Byte) : Statement (.ldVxByte x kk) := fun _ => formatXK 0x6 x kk (by decide)

theorem addVxByte (x : Reg) (kk : Byte) : Statement (.addVxByte x kk) := fun _ => formatXK 0x7 x kk (by decide)

theorem ldVxVy (x y : Reg) : Statement (.ldVxVy x y) := fun _ => formatXY 0x8 x y 0x0 (by decide) (by decide)

theorem orVxVy (x y : Reg) : Statement (.orVxVy x y) := fun _ => formatXY 0x8 x y 0x1 (by decide) (by decide)

theorem andVxVy (x y : Reg) : Statement (.andVxVy x y) := fun _ => formatXY 0x8 x y 0x2 (by decide) (by decide)

theorem xorVxVy (x y : Reg) : Statement (.xorVxVy x y) := fun _ => formatXY 0x8 x y 0x3 (by decide) (by decide)

theorem addVxVy (x y : Reg) : Statement (.addVxVy x y) := fun _ => formatXY 0x8 x y 0x4 (by decide) (by decide)

theorem subVxVy (x y : Reg) : Statement (.subVxVy x y) := fun _ => formatXY 0x8 x y 0x5 (by decide) (by decide)

theorem shrVx (x y : Reg) : Statement (.shrVx x y) := fun _ => formatXY 0x8 x y 0x6 (by decide) (by decide)

theorem subnVxVy (x y : Reg) : Statement (.subnVxVy x y) := fun _ => formatXY 0x8 x y 0x7 (by decide) (by decide)

theorem shlVx (x y : Reg) : Statement (.shlVx x y) := fun _ => formatXY 0x8 x y 0xE (by decide) (by decide)

theorem sneVxVy (x y : Reg) : Statement (.sneVxVy x y) := fun _ => formatXY 0x9 x y 0x0 (by decide) (by decide)

theorem ldIAddr (nnn : Addr) : Statement (.ldIAddr nnn) := fun _ => formatA 0xA nnn (by decide)

theorem jpV0Addr (nnn : Addr) : Statement (.jpV0Addr nnn) := fun _ => formatA 0xB nnn (by decide)

theorem rndVxByte (x : Reg) (kk : Byte) : Statement (.rndVxByte x kk) := fun _ => formatXK 0xC x kk (by decide)

theorem drwVxVyNibble (x y : Reg) (n : Nat) : Statement (.drwVxVyNibble x y n) := fun h =>
  formatXYN 0xD x y n (by decide) (of_decide_eq_true h)

theorem skpVx (x : Reg) : Statement (.skpVx x) := fun _ => formatXS 0xE x 0x9E (by decide)

theorem sknpVx (x : Reg) : Statement (.sknpVx x) := fun _ => formatXS 0xE x 0xA1 (by decide)

theorem ldVxDT (x : Reg) : Statement (.ldVxDT x) := fun _ => formatXS 0xF x 0x07 (by decide)

theorem ldVxK (x : Reg) : Statement (.ldVxK x) := fun _ => formatXS 0xF x 0x0A (by decide)

theorem ldDTVx (x : Reg) : Statement (.ldDTVx x) := fun _ => formatXS 0xF x 0x15 (by decide)

theorem ldSTVx (x : Reg) : Statement (.ldSTVx x) := fun _ => formatXS 0xF x 0x18 (by decide)

theorem addIVx (x : Reg) : Statement (.addIVx x) := fun _ => formatXS 0xF x 0x1E (by decide)

theorem ldFVx (x : Reg) : Statement (.ldFVx x) := fun _ => formatXS 0xF x 0x29 (by decide)

theorem ldBVx (x : Reg) : Statement (.ldBVx x) := fun _ => formatXS 0xF x 0x33 (by decide)

theorem ldMemVx (x : Reg) : Statement (.ldMemVx x) := fun _ => formatXS 0xF x 0x55 (by decide)

theorem ldVxMem (x : Reg) : Statement (.ldVxMem x) := fun _ => formatXS 0xF x 0x65 (by decide)

end Sys2Proof.Laws.OpcodeRow
end

