-- ==== Sys2Proof/Laws/Step.lean ====
section
/-! SUPPORT. What a step can do, said once. -/

namespace Sys2Proof.Machine

/-- A word the next step fetches, in terms of the fetch. -/
theorem fetches_iff (s : State) (op : Word) : s.fetches op ↔ s.ak = none ∧ s.fetch = some op := by
  unfold State.fetches
  have hw := wordOfBytes_toNat (s.readByte s.pc.toNat) (s.readByte (s.pc.toNat + 1))
  rcases s.fetch_spec with ⟨h, hf⟩ | ⟨h, hf⟩
  · rw [hf]
    constructor
    · rintro ⟨-, h', -⟩; omega
    · rintro ⟨-, h'⟩; cases h'
  · rw [hf, Option.some.injEq]
    constructor
    · rintro ⟨ha, -, ho⟩
      exact ⟨ha, BitVec.eq_of_toNat_eq (by rw [hw, ho])⟩
    · rintro ⟨ha, ho⟩
      exact ⟨ha, h, by rw [← ho, hw]⟩

/-- The four things a step can do: poll for a key, fail to fetch, report an unrecognized word, run an instruction. -/
theorem step_cases (s : State) :
    (∃ r, s.ak = some r ∧ step s = .next (waitCycle r s)) ∨
    (s.ak = none ∧ 4096 ≤ s.pc.toNat + 1 ∧ step s = .next (s.raise .fetchOutOfBounds)) ∨
    (∃ op, s.fetches op ∧ decodeWord op = none ∧ step s = .next (s.forgetError.addPc2.raise (.unknownOpcode op))) ∨
    (∃ op i, s.fetches op ∧ decodeWord op = some i ∧ step s = finishResult (exec i s.forgetError.addPc2)) := by
  cases ha : s.ak with
  | some r => exact .inl ⟨r, rfl, by rw [step, cycle, ha]⟩
  | none =>
    right
    rcases s.fetch_spec with ⟨h, hf⟩ | ⟨h, hf⟩
    · exact .inl ⟨rfl, h, by rw [step, cycle, ha]; simp only [hf]⟩
    · right
      have hop := (fetches_iff s _).2 ⟨ha, hf⟩
      cases hd : decodeWord (wordOfBytes (s.readByte s.pc.toNat) (s.readByte (s.pc.toNat + 1))) with
      | none => exact .inl ⟨_, hop, hd, by rw [step, cycle, ha]; simp only [hf, runWord, hd]⟩
      | some i => exact .inr ⟨_, i, hop, hd, by rw [step, cycle, ha]; simp only [hf, runWord, hd]⟩

end Sys2Proof.Machine
end

