-- ==== Sys2Proof/Tests/Slice0.lean ====
section
/-! SUPPORT. Tests with results from 95_test_vectors (the row is named in each comment), the WellFormed smoke test, the
decode words, and one state that meets the hypotheses of each obligation that has some. -/

namespace Sys2Proof.Tests

open Sys2Proof.Machine

/-! ### Helpers -/

/-- The reset state with the word `w` at PC = 0x200 and the registers of the list set. -/
def start (w : Nat) (regs : List (Reg × Byte)) : State :=
  regs.foldl (fun s p => s.setV p.1 p.2) (State.reset.withFetchWord 16 w)

/-- The reset state at PC = `pc`, with the word `w` placed there. -/
def startAt (pc : Word) (w : Nat) : State := (State.reset.setPc pc).withFetchWord 16 w

/-- The step from `s` answers a next state with property `f`. -/
def ends (s : State) (f : State → Bool) : Bool :=
  match step s with
  | .next t => f t
  | .fault _ => false
  | .refused _ => false

/-- The same for a meaning. -/
def execEnds (i : Instr) (s : State) (f : State → Bool) : Bool :=
  match exec i s with
  | .next t => f t
  | .fault _ => false
  | .refused _ => false

/-- A screen with one pixel lit. -/
def lit (xx : Fin 64) (yy : Fin 32) : Screen := flipPixel blankScreen xx yy

/-- The state with the stack pointer and one stack entry set. -/
def withStack (sp : Fin 17) (j : Fin 16) (w : Word) (s : State) : State :=
  { s with sp := sp, stack := s.stack.set j.val w }

/-- The picture and the draw flag, set directly. -/
def withScreen (fb : Screen) (df : Bool) (s : State) : State := { s with fb := fb, df := df }

/-- A key wait in progress. -/
def waitingFor (r : Reg) (k kl : Keys) (s : State) : State := { s with ak := some r, k := k, kl := kl }

/-! ### WellFormed: the one check refuses (30_encoding R72) -/

theorem test_wellFormed_refuses_height_16 : WellFormed (.drwVxVyNibble 0 0 16) = false := by decide

theorem test_wellFormed_accepts_height_15 : WellFormed (.drwVxVyNibble 15 15 15) = true := by decide

/-! ### Decoding, a word per constructor (30_encoding R75 and R79) -/

theorem test_decode_Z : decodeWord 0x00E0 = some .cls ∧ decodeWord 0x00EE = some .ret := by decide

theorem test_decode_A : decodeWord 0x1228 = some (.jpAddr 0x228) ∧ decodeWord 0x2ABC = some (.callAddr 0xABC) ∧
    decodeWord 0xA2F0 = some (.ldIAddr 0x2F0) ∧ decodeWord 0xBFFE = some (.jpV0Addr 0xFFE) := by decide

theorem test_decode_XK : decodeWord 0x3A12 = some (.seVxByte 0xA 0x12) ∧ decodeWord 0x4211 = some (.sneVxByte 2 0x11) ∧
    decodeWord 0x6A2F = some (.ldVxByte 0xA 0x2F) ∧ decodeWord 0x71FF = some (.addVxByte 1 0xFF) ∧
    decodeWord 0xC30F = some (.rndVxByte 3 0x0F) := by decide

theorem test_decode_XY : decodeWord 0x5340 = some (.seVxVy 3 4) ∧ decodeWord 0x9340 = some (.sneVxVy 3 4) ∧
    decodeWord 0x8120 = some (.ldVxVy 1 2) ∧ decodeWord 0x8121 = some (.orVxVy 1 2) ∧
    decodeWord 0x8122 = some (.andVxVy 1 2) ∧ decodeWord 0x8123 = some (.xorVxVy 1 2) := by decide

theorem test_decode_XY_flagged : decodeWord 0x8124 = some (.addVxVy 1 2) ∧ decodeWord 0x8125 = some (.subVxVy 1 2) ∧
    decodeWord 0x8126 = some (.shrVx 1 2) ∧ decodeWord 0x8127 = some (.subnVxVy 1 2) ∧
    decodeWord 0x812E = some (.shlVx 1 2) := by decide

theorem test_decode_XYN : decodeWord 0xDBC5 = some (.drwVxVyNibble 0xB 0xC 5) ∧
    decodeWord 0xD120 = some (.drwVxVyNibble 1 2 0) := by decide

theorem test_decode_XS_keys_timers : decodeWord 0xE59E = some (.skpVx 5) ∧ decodeWord 0xE5A1 = some (.sknpVx 5) ∧
    decodeWord 0xF307 = some (.ldVxDT 3) ∧ decodeWord 0xF30A = some (.ldVxK 3) ∧
    decodeWord 0xF215 = some (.ldDTVx 2) ∧ decodeWord 0xF218 = some (.ldSTVx 2) := by decide

theorem test_decode_XS_index : decodeWord 0xF21E = some (.addIVx 2) ∧ decodeWord 0xF429 = some (.ldFVx 4) ∧
    decodeWord 0xF333 = some (.ldBVx 3) ∧ decodeWord 0xF255 = some (.ldMemVx 2) ∧
    decodeWord 0xF165 = some (.ldVxMem 1) := by decide

/-- ER1 to ER8, SK9, AL47: words that are no instruction. -/
theorem test_decode_unknown : decodeWord 0x0000 = none ∧ decodeWord 0x00E1 = none ∧ decodeWord 0x5341 = none ∧
    decodeWord 0x8128 = none ∧ decodeWord 0x812F = none ∧ decodeWord 0xE000 = none ∧ decodeWord 0xF166 = none := by
  decide

theorem test_decodeBytes_big_endian : decodeBytes [0x6A, 0x2F, 0x00] = .instr (.ldVxByte 0xA 0x2F) [0x00] ∧
    decodeBytes [0x12] = .truncated := by decide

theorem test_decodeTableWord : decodeTableWord 16 0x6A2F = some (.ldVxByte 0xA 0x2F) := by decide

/-! ### Control transfer (part 2.1) -/

/-- FL1. -/
theorem test_jp : ends (start 0x1228 []) (fun t => t.status = .ok && t.pc == 0x228) = true := by decide

/-- FL6. -/
theorem test_call_at_depth_15 : ends (withStack 15 0 0 (start 0x2300 []))
    (fun t => t.status = .ok && t.stack[15] == 0x0202 && t.sp == 16 && t.pc == 0x300) = true := by decide

/-- FL7. -/
theorem test_call_overflow : ends (withStack 16 15 0x0ABC (start 0x2300 []))
    (fun t => t.status = .stackOverflow && t.stack[15] == 0x0ABC && t.sp == 16 && t.pc == 0x202) = true := by decide

/-- FL9. -/
theorem test_ret_keeps_the_entry : ends (withStack 1 0 0x0204 (start 0x00EE []))
    (fun t => t.status = .ok && t.stack[0] == 0x0204 && t.sp == 0 && t.pc == 0x204) = true := by decide

/-- FL11. -/
theorem test_ret_underflow : ends ((start 0x00EE []).setDT 5)
    (fun t => t.status = .stackUnderflow && t.sp == 0 && t.pc == 0x202 && t.dt == 5) = true := by decide

/-- FL13. -/
theorem test_jp_v0_not_reduced : ends (start 0xBFFF [(0, 0xFF)]) (fun t => t.pc == 0x10FE) = true := by decide

/-- FL14. -/
theorem test_jp_v0_uses_v0 : ends (start 0xB2F0 [(0, 0x11), (2, 0x77)]) (fun t => t.pc == 0x301) = true := by decide

/-! ### Skips (part 2.2) -/

/-- SK1, SK2. -/
theorem test_se_byte : (ends (start 0x3100 []) (fun t => t.pc == 0x204) &&
    ends (start 0x3100 [(1, 1)]) (fun t => t.pc == 0x202)) = true := by decide

/-- SK4, SK5. -/
theorem test_sne_byte : (ends (start 0x4211 [(2, 0x10)]) (fun t => t.pc == 0x204) &&
    ends (start 0x4210 [(2, 0x10)]) (fun t => t.pc == 0x202)) = true := by decide

/-- SK6, SK7. -/
theorem test_se_register : (ends (start 0x5340 [(3, 0x7F), (4, 0x7F)]) (fun t => t.pc == 0x204) &&
    ends (start 0x5340 [(3, 0x7F), (4, 0x7E)]) (fun t => t.pc == 0x202)) = true := by decide

/-- SK10, SK11. -/
theorem test_sne_register : (ends (start 0x9340 [(3, 1), (4, 2)]) (fun t => t.pc == 0x204) &&
    ends (start 0x9340 [(3, 2), (4, 2)]) (fun t => t.pc == 0x202)) = true := by decide

/-- SK15, SK16. -/
theorem test_skp : (ends ((start 0xE59E [(5, 0x0A)]).setK 0xFBFF) (fun t => t.pc == 0x202) &&
    ends ((start 0xE59E [(5, 0x1A)]).setK 0x0400) (fun t => t.pc == 0x204)) = true := by decide

/-- SK17, SK18. -/
theorem test_sknp : (ends (start 0xE5A1 [(5, 0x0A)]) (fun t => t.pc == 0x204) &&
    ends ((start 0xE5A1 [(5, 0x0A)]).setK 0x0400) (fun t => t.pc == 0x202)) = true := by decide

/-! ### Loads, arithmetic, logic, random (part 2.3) -/

/-- AL1. -/
theorem test_ld_byte : ends (start 0x6A2F []) (fun t => t.getV 10 == 0x2F && t.pc == 0x202) = true := by decide

/-- AL3. -/
theorem test_add_byte_no_flag : ends (start 0x7102 [(1, 0xFF)]) (fun t => t.getV 1 == 1 && t.getV 15 == 0) = true := by
  decide

/-- AL8. -/
theorem test_ld_register_into_vf : ends (start 0x8F20 [(2, 0x33)]) (fun t => t.getV 15 == 0x33) = true := by decide

/-- AL9. -/
theorem test_or : ends (start 0x8121 [(1, 0xF0), (2, 0x0F), (15, 1)])
    (fun t => t.getV 1 == 0xFF && t.getV 2 == 0x0F && t.getV 15 == 1) = true := by decide

/-- AL10. -/
theorem test_and : ends (start 0x8122 [(1, 0xF3), (2, 0x3F), (15, 1)])
    (fun t => t.getV 1 == 0x33 && t.getV 15 == 1) = true := by decide

/-- AL11. -/
theorem test_xor : ends (start 0x8123 [(1, 0xFF), (2, 0x0F), (15, 1)])
    (fun t => t.getV 1 == 0xF0 && t.getV 15 == 1) = true := by decide

/-- AL15, AL14. -/
theorem test_add_carry : (ends (start 0x8124 [(1, 0xFF), (2, 1)]) (fun t => t.getV 1 == 0 && t.getV 15 == 1) &&
    ends (start 0x8124 [(1, 0x10), (2, 0x20), (15, 1)]) (fun t => t.getV 1 == 0x30 && t.getV 15 == 0)) = true := by
  decide

/-- AL18. -/
theorem test_add_flag_wins : ends (start 0x8F14 [(15, 0xFF), (1, 2)]) (fun t => t.getV 15 == 1) = true := by decide

/-- AL22, AL23. -/
theorem test_sub : (ends (start 0x8125 [(1, 3), (2, 5), (15, 1)]) (fun t => t.getV 1 == 0xFE && t.getV 15 == 0) &&
    ends (start 0x8125 [(1, 7), (2, 7)]) (fun t => t.getV 1 == 0 && t.getV 15 == 1)) = true := by decide

/-- AL27. -/
theorem test_sub_flag_wins : ends (start 0x8F15 [(15, 3), (1, 7)]) (fun t => t.getV 15 == 0) = true := by decide

/-- AL28, AL29. -/
theorem test_subn : (ends (start 0x8127 [(1, 3), (2, 5)]) (fun t => t.getV 1 == 2 && t.getV 15 == 1) &&
    ends (start 0x8127 [(1, 5), (2, 3), (15, 1)]) (fun t => t.getV 1 == 0xFE && t.getV 15 == 0)) = true := by decide

/-- AL35, AL34. -/
theorem test_shr : (ends (start 0x8126 [(1, 0xFF)]) (fun t => t.getV 1 == 0x7F && t.getV 15 == 1) &&
    ends (start 0x8106 [(1, 4), (15, 1)]) (fun t => t.getV 1 == 2 && t.getV 15 == 0)) = true := by decide

/-- AL39, AL40. -/
theorem test_shl : (ends (start 0x810E [(1, 0x81)]) (fun t => t.getV 1 == 2 && t.getV 15 == 1) &&
    ends (start 0x810E [(1, 0x41), (15, 1)]) (fun t => t.getV 1 == 0x82 && t.getV 15 == 0)) = true := by decide

/-- AL44: the random input is an argument here, since `Config.rnd` has no value. -/
theorem test_rnd_masks : ((rndWith 0xA7 3 0x0F State.reset).getV 3 == 0x07) = true := by decide

/-- The word of AL45: one sample of the random input is taken (R144), whatever its value. -/
theorem test_rnd_counts : ends (start 0xC300 [(3, 0x55)]) (fun t => t.rndCount == 1 && t.pc == 0x202) = true := by
  decide

/-! ### Index register and memory (part 2.4) -/

/-- IX1. -/
theorem test_ld_i : ends (start 0xA2F0 []) (fun t => t.i == 0x2F0) = true := by decide

/-- IX4. -/
theorem test_add_i_wraps : ends ((start 0xF21E [(2, 5)]).setI 0xFFE) (fun t => t.i == 3 && t.getV 15 == 0) = true := by
  decide

/-- 10_state R23: the glyphs of A (as P3 draws it) and F, and the first byte above the fontset. -/
theorem test_fontset : State.reset.memRead 0x32 5 = [0xF0, 0x90, 0xF0, 0x90, 0x90] ∧
    State.reset.memRead 0x4B 6 = [0xF0, 0x80, 0xF0, 0x80, 0x80, 0x00] := by decide

/-- IX9. -/
theorem test_ld_f_low_nibble : ends (start 0xF429 [(4, 0x1A)]) (fun t => t.i == 0x32) = true := by decide

/-- IX12. -/
theorem test_bcd : ends ((start 0xF333 [(3, 0xEA)]).setI 0x300)
    (fun t => t.memRead 0x300 3 == [2, 3, 4] && t.i == 0x300) = true := by decide

/-- IX15. -/
theorem test_bcd_wraps : ends ((start 0xF333 [(3, 0x7B)]).setI 0xFFF) (fun t => t.memRead 0xFFF 3 == [1, 2, 3]) = true := by
  decide

/-- IX17. -/
theorem test_store_registers : ends ((start 0xF255 [(0, 0x11), (1, 0x22), (2, 0x33), (3, 0x44)]).setI 0x400)
    (fun t => t.memRead 0x400 4 == [0x11, 0x22, 0x33, 0] && t.i == 0x400) = true := by decide

/-- IX20: the next step runs what the store placed. -/
theorem test_store_seen_by_fetch : ends ((start 0xF055 [(0, 0x12)]).setI 0x202)
    (fun t => ends t fun u => u.status = .ok && u.pc == 0x200) = true := by decide

/-- IX22. -/
theorem test_load_registers : ends (State.memWrite 0x400 [0x11, 0x22, 0x33] ((start 0xF165 [(2, 0x99)]).setI 0x400))
    (fun t => t.getV 0 == 0x11 && t.getV 1 == 0x22 && t.getV 2 == 0x99 && t.i == 0x400) = true := by decide

/-- IX23. -/
theorem test_load_registers_wraps : ends (State.memWrite 0xFFF [0x5A] ((start 0xF165 []).setI 0xFFF))
    (fun t => t.getV 0 == 0x5A && t.getV 1 == 0xF0) = true := by decide

/-! ### Display (part 2.5) -/

/-- DR2. -/
theorem test_cls : ends (withScreen (lit 63 31) true (start 0x00E0 [])) (fun t => t.fb == blankScreen && t.df) = true := by
  decide

/-- DR5: rows and columns wrap. -/
theorem test_drw_wraps : ends (State.memWrite 0x300 [0x80, 0x80] ((start 0xD012 [(0, 63), (1, 31)]).setI 0x300))
    (fun t => t.fb == flipPixel (lit 63 31) 63 0 && t.getV 15 == 0 && t.df) = true := by decide

/-- DR8: a collision. -/
theorem test_drw_collision : ends (withScreen (lit 1 0) false (State.memWrite 0x300 [0xC0] ((start 0xD011 []).setI 0x300)))
    (fun t => t.fb == lit 0 0 && t.getV 15 == 1 && t.df) = true := by decide

/-! ### Timers and the key wait (part 2.6) -/

/-- TK1. -/
theorem test_ld_from_dt : ends ((start 0xF307 []).setDT 7) (fun t => t.getV 3 == 7 && t.dt == 6) = true := by decide

/-- TK3. -/
theorem test_ld_dt : ends (start 0xF215 [(2, 5)]) (fun t => t.dt == 4 && t.st == 0) = true := by decide

/-- TK8. -/
theorem test_ld_st : ends ((start 0xF218 [(2, 0xFF)]).setDT 1) (fun t => t.st == 254 && t.dt == 0) = true := by decide

/-- TK9. -/
theorem test_key_wait_begins : ends ((start 0xF30A []).setK 2)
    (fun t => t.ak = some 3 && t.kl == 2 && t.pc == 0x202 && t.getV 3 == 0) = true := by decide

/-- TK13, TK11. -/
theorem test_key_wait_polls : (ends (waitingFor 3 0x0022 0 State.reset)
    (fun t => t.getV 3 == 1 && t.ak = none && t.kl == 0x22 && t.pc == 0x200) &&
    ends (waitingFor 3 2 2 (State.reset.setDT 4)) (fun t => t.ak = some 3 && t.dt == 3)) = true := by decide

/-! ### Errors and the fetch (part 2.7) -/

/-- ER2. -/
theorem test_unknown_opcode : ends (((start 0x5FFF []).setDT 5).setST 5)
    (fun t => t.status = .unknownOpcode 0x5FFF && t.pc == 0x202 && t.dt == 5 && t.st == 5) = true := by decide

/-- ER9. -/
theorem test_fetch_out_of_bounds : ends (State.reset.setPc 0xFFF)
    (fun t => t.status = .fetchOutOfBounds && t.pc == 0xFFF) = true := by decide

/-- ER12. -/
theorem test_last_fetchable_address : ends (startAt 0xFFE 0x6A01)
    (fun t => t.status = .ok && t.getV 10 == 1 && t.pc == 0x1000) = true := by decide

/-! ### A state that meets the hypotheses, for each obligation that has some -/

theorem witness_DecodeOfEncode : WellFormed (.drwVxVyNibble 15 0 15) = true ∧ WellFormed .cls = true := by decide

theorem witness_EncodeOfDecode : decodeWord 0xDF0F = some (.drwVxVyNibble 15 0 15) := by decide

theorem witness_OpcodeRowsDecideDecoding : (0x81FE : Word) &&& (opcodeRow (.shlVx 0 0)).1 = (opcodeRow (.shlVx 0 0)).2 := by
  decide

theorem witness_StepRunsTheDecodedInstruction :
    (startAt 0xFFE 0x6A01).fetches 0x6A01 ∧ decodeWord 0x6A01 = some (.ldVxByte 0xA 1) :=
  ⟨⟨rfl, by decide, by decide⟩, by decide⟩

theorem witness_FetchOutOfBoundsChangesNothing :
    (State.reset.setPc 0xFFF).ak = none ∧ 4096 ≤ (State.reset.setPc 0xFFF).pc.toNat + 1 := by decide

theorem witness_UnknownOpcodeLeavesAllButPc : State.reset.fetches 0x0000 ∧ decodeWord 0x0000 = none :=
  ⟨⟨rfl, by decide, by decide⟩, by decide⟩

/-- A wait with a held key only, and one with new keys, the lowest of which is key 15. -/
theorem witness_WaitingStepPollsTheKeys :
    (waitingFor 15 1 1 State.reset).ak = some 15 ∧
    (∀ key : Key, (1 : Keys).getLsbD key.val = true → (1 : Keys).getLsbD key.val = true) ∧
    (0x8001 : Keys).getLsbD 15 = true ∧ (1 : Keys).getLsbD 15 = false ∧
    ∀ j : Key, j < 15 → (0x8001 : Keys).getLsbD j.val = true → (1 : Keys).getLsbD j.val = true := by decide

/-- Each error is reported from some state. -/
theorem witness_FailedStepChangesOnlyPc :
    (ends (State.reset.setPc 0x1000) (fun t => t.status = .fetchOutOfBounds) &&
     ends State.reset (fun t => t.status = .unknownOpcode 0) &&
     ends (withStack 16 0 0 (start 0x2ABC [])) (fun t => t.status = .stackOverflow) &&
     ends (start 0x00EE []) (fun t => t.status = .stackUnderflow)) = true := by decide

/-- A register instruction, and the stores at their last byte and at the byte after it, with I at 0xFFF. -/
theorem witness_OnlyListedWritersWrite :
    (∃ t, exec (.addVxVy 1 2) State.reset = .next t) ∧ ¬ MayWrite (.addVxVy 1 2) State.reset (.v 3) ∧
    (∃ t, exec (.ldBVx 3) (State.reset.setI 0xFFF) = .next t) ∧
    ¬ MayWrite (.ldBVx 3) (State.reset.setI 0xFFF) (.mem 2) ∧ MayWrite (.ldBVx 3) (State.reset.setI 0xFFF) (.mem 1) ∧
    (∃ t, exec (.ldMemVx 1) (State.reset.setI 0xFFF) = .next t) ∧
    ¬ MayWrite (.ldMemVx 1) (State.reset.setI 0xFFF) (.mem 1) ∧
    MayWrite (.ldMemVx 1) (State.reset.setI 0xFFF) (.mem 0) := by
  refine ⟨⟨_, rfl⟩, by simp [MayWrite], ⟨_, rfl⟩, ?_, ⟨1, 2, by decide, by decide, rfl⟩, ⟨_, rfl⟩, ?_,
    ⟨0, 1, by decide, by decide, rfl⟩⟩
  · rintro ⟨a, j, hj, ha, hp⟩
    have h2 : (2 : Nat) = (0xFFF + j) % 4096 := (congrArg Fin.val (Part.mem.inj hp)).trans ha
    omega
  · rintro ⟨a, j, hj, ha, hp⟩
    have h1 : (1 : Nat) = (0xFFF + j) % 4096 := (congrArg Fin.val (Part.mem.inj hp)).trans ha
    have : j ≤ 1 := hj
    omega

/-- CALL and RET below and at their limit. -/
theorem witness_OnlyListedWritersWrite_stack :
    (∃ t, exec (.callAddr 0x300) (withStack 15 0 0 State.reset) = .next t) ∧
    ¬ MayWrite (.callAddr 0x300) (withStack 15 0 0 State.reset) (.stack 14) ∧
    ¬ MayWrite (.callAddr 0x300) (withStack 16 0 0 State.reset) .pc ∧
    ¬ MayWrite .ret (withStack 1 0 0 State.reset) .status ∧ ¬ MayWrite .ret State.reset .pc := by
  refine ⟨⟨_, rfl⟩, ?_, ?_, ?_, ?_⟩ <;> simp [MayWrite, withStack, State.reset]

/-- A pixel right of the eight columns of the sprite. -/
theorem witness_OnlyListedWritersWrite_pixel :
    (∃ t, exec (.drwVxVyNibble 0 1 1) State.reset = .next t) ∧
    ¬ MayWrite (.drwVxVyNibble 0 1 1) State.reset (.pixel 8 0) := by
  refine ⟨⟨_, rfl⟩, ?_⟩
  rintro (h | h | ⟨xx, yy, ⟨r, c, hr, hc, -, hx, -⟩, hp⟩)
  · cases h
  · cases h
  · have h8 : (8 : Nat) = (0 + c) % 64 := (congrArg Fin.val (Part.pixel.inj hp).1).trans hx
    omega

theorem witness_PartsDetermineTheState : Memory.wf (start 0x6A2F []).mem = true ∧
    (∀ p, (start 0x6A2F []).look p = (start 0x6A2F []).look p) := ⟨by decide, fun _ => rfl⟩

/-- A step that finds DF set, one that changes memory, one that samples the random input. -/
theorem witness_StepNeverDoes :
    (ends (withScreen blankScreen true (start 0x6A2F [])) (fun _ => true) &&
     ends ((start 0xF055 [(0, 0xAB)]).setI 0xFFF) (fun t => t.readByte 0xFFF != 0) &&
     ends (start 0xC300 []) (fun t => t.rndCount != 0)) = true := by decide

theorem witness_StepKeepsTheInvariant :
    Inv (startAt 0xFFE 0x3000) ∧ ends (startAt 0xFFE 0x3000) (fun t => t.pc == 0x1002) = true :=
  ⟨⟨by decide, by decide, by decide, by decide⟩, by decide⟩

theorem witness_HostOperationsKeepTheInvariant : Inv (withStack 1 0 0x1000 (start 0x00EE [])) :=
  ⟨by decide, by decide, by decide, by decide⟩

theorem witness_ResetLeavesTheListedValues : (79 : Fin 4096).val < fontset.length ∧ 80 ≤ (80 : Fin 4096).val := by decide

theorem witness_LoadProgramCopiesTheImage : Memory.wf State.reset.mem = true ∧
    (List.replicate 3584 (0xAA : Byte)).length ≤ 3584 ∧ 3584 < (List.replicate 3585 (0x55 : Byte)).length := by
  refine ⟨rfl, ?_, ?_⟩ <;> rw [List.length_replicate]
  decide

/-- For the flag-setting instructions and DRW twice: a destination other than VF. -/
theorem witness_destination_is_not_VF : (14 : Reg) ≠ 15 ∧ (0 : Reg) ≠ 15 := by decide

/-- For LdBVxStoresTheDigits and LdMemVxStoresTheRegisters: canonical memory, registers up to x, an address outside. -/
theorem witness_stores : Memory.wf (start 0xFF55 []).mem = true ∧ (15 : Reg) ≤ 15 ∧
    (∀ j : Reg, j ≤ 15 → (0x0F : Fin 4096).val ≠ (0xFFF + j.val) % 4096) ∧
    ∀ j, j < 3 → (2 : Fin 4096).val ≠ (0xFFF + j) % 4096 := by decide

theorem witness_LdVxMemLoadsTheRegisters : (0 : Reg) ≤ 0 ∧ ∀ j : Reg, j ≤ 14 → Part.v 15 ≠ .v j := by decide

/-- The state right after the store meets the hypotheses on the later state. -/
theorem witness_StoreThenLoadRestoresTheRegisters :
    Memory.wf (start 0xF255 []).mem = true ∧ ∃ t u : State, exec (.ldMemVx 15) (start 0xF255 []) = .next t ∧
      u.mem = t.mem ∧ u.i = t.i := ⟨by decide, _, _, rfl, rfl, rfl⟩

/-- The last address a word can be fetched from. -/
theorem witness_StoreIsSeenByTheNextFetch :
    Memory.wf ((State.reset.setPc 0xFFE).setI 0xFFE).mem = true ∧ ((State.reset.setPc 0xFFE).setI 0xFFE).ak = none ∧
    (1 : Reg).val = (0 : Reg).val + 1 ∧ (1 : Reg) ≤ 1 ∧
    ((State.reset.setPc 0xFFE).setI 0xFFE).pc.toNat =
      (((State.reset.setPc 0xFFE).setI 0xFFE).i.toNat + (0 : Reg).val) % 4096 ∧
    ((State.reset.setPc 0xFFE).setI 0xFFE).pc.toNat + 1 < 4096 := by decide

/-- The jump to 0xFFF with no wait in progress, and a jump to its own address. -/
theorem witness_JpAddrSetsPc : State.reset.ak = none ∧
    (start 0x1200 []).fetches (BitVec.ofNat 16 (0x1000 + (0x200 : Addr).toNat)) ∧
    (start 0x1200 []).pc.toNat = (0x200 : Addr).toNat := ⟨rfl, ⟨rfl, by decide, by decide⟩, by decide⟩

theorem witness_CallAddrPushesTheReturnAddress :
    (withStack 15 0 0 State.reset).sp.val < 16 ∧ (15 : Fin 16).val = (withStack 15 0 0 State.reset).sp.val := by decide

theorem witness_RetPopsTheReturnAddress :
    0 < (withStack 16 0 0 State.reset).sp.val ∧ (15 : Fin 16).val + 1 = (withStack 16 0 0 State.reset).sp.val := by decide

theorem witness_StackErrorsWriteNothing :
    (withStack 16 0 0 State.reset).sp.val = 16 ∧ State.reset.sp.val = 0 := by decide

/-- The state right after the call is one a body can come back with. -/
theorem witness_CallThenRetComesBack : State.reset.sp.val < 16 ∧
    ∃ t u : State, exec (.callAddr 0x300) State.reset = .next t ∧ u.sp = t.sp ∧ u.stack = t.stack :=
  ⟨by decide, _, _, rfl, rfl, rfl⟩

theorem witness_RegisterSkipsAddTwoToPc : 0 < 1 ∧ 15 < 16 := by decide

/-- Key 15 down, and not down. -/
theorem witness_KeySkipsTestTheSnapshot :
    ((start 0 [(5, 0xFF)]).setK 0x8000).k.getLsbD (((start 0 [(5, 0xFF)]).setK 0x8000).look (.v 5) % 16) = true ∧
    (start 0 [(5, 0xFF)]).k.getLsbD ((start 0 [(5, 0xFF)]).look (.v 5) % 16) = false := by decide

/-- A glyph at the corner: its first bit hits the pixel (63, 31), and it does not reach (32, 15). -/
theorem witness_DrwInvertsTheSpritePixels : 15 < 16 ∧
    State.reset.spriteHits 63 31 15 63 31 ∧ ¬ State.reset.spriteHits 63 31 15 32 15 := by
  refine ⟨by decide, ⟨0, 0, by decide, by decide, by decide, by decide, by decide⟩, ?_⟩
  rintro ⟨r, c, hr, hc, -, hx, hy⟩
  have : (32 : Fin 64).val = 32 := rfl
  omega

theorem witness_DrawingTwiceRestoresTheScreen : (0 : Reg) ≠ 15 ∧ (1 : Reg) ≠ 15 ∧ 5 < 16 ∧
    State.reset.spriteHits (State.reset.look (.v 0)) (State.reset.look (.v 1)) 5 3 4 ∧
    State.reset.look (.pixel 3 4) = 0 :=
  ⟨by decide, by decide, by decide, ⟨4, 3, by decide, by decide, by decide, by decide, by decide⟩, by decide⟩

theorem witness_TimerWrittenIsTickedInTheSameStep :
    (start 0xFF15 []).fetches 0xFF15 ∧ (0xFF15 : Word).toNat = 0xF015 + 0x100 * (15 : Reg).val ∧
    (start 0xF018 []).fetches 0xF018 ∧ (0xF018 : Word).toNat = 0xF018 + 0x100 * (0 : Reg).val :=
  ⟨⟨rfl, by decide, by decide⟩, by decide, ⟨rfl, by decide, by decide⟩, by decide⟩

end Sys2Proof.Tests
end

/-! ## Proofs of family 10_state: the state and its invariant -/

/-! ### Memory in canonical form is determined by its bytes -/

namespace Sys2Proof.Machine.Memory

theorem wfFrom_cons (lo a : Nat) (b : Byte) (m : Mem) : wfFrom lo ((a, b) :: m) = true ↔
    lo ≤ a ∧ a < 4096 ∧ b ≠ resetByte a ∧ wfFrom (a + 1) m = true := by
  simp only [wfFrom, Bool.and_eq_true, decide_eq_true_eq, and_assoc]

theorem read_cons_self (a : Nat) (b : Byte) (m : Mem) : read ((a, b) :: m) a = b := if_pos rfl

theorem read_cons_ne (a a' : Nat) (b : Byte) (m : Mem) (h : a' ≠ a) : read ((a, b) :: m) a' = read m a' := if_neg h

/-- The entry at `a` of a canonical list shows: a list that is canonical from above `a` reads differently there. -/
theorem read_cons_self_ne (lo a : Nat) (b : Byte) (m m' : Mem) (h : wfFrom lo ((a, b) :: m) = true)
    (h' : wfFrom (a + 1) m' = true) : read ((a, b) :: m) a ≠ read m' a := by
  obtain ⟨-, -, hb, -⟩ := (wfFrom_cons lo a b m).1 h
  rwa [read_cons_self, read_below m' (a + 1) a h' (Nat.lt_succ_self a)]

/-- Two canonical lists with the same bytes are equal: they have their first entry at the same address, and their
tails have the same bytes. -/
theorem eq_of_read_eq (m : Mem) : ∀ (lo : Nat) (m' : Mem), wfFrom lo m = true → wfFrom lo m' = true →
    (∀ a, a < 4096 → read m a = read m' a) → m = m' := by
  induction m with
  | nil =>
    intro lo m' _ hm' hread
    cases m' with
    | nil => rfl
    | cons c' m' =>
      obtain ⟨a', b'⟩ := c'
      obtain ⟨-, ha', -, -⟩ := (wfFrom_cons _ _ _ _).1 hm'
      exact absurd (hread a' ha').symm (read_cons_self_ne lo a' b' m' [] hm' rfl)
  | cons c m ih =>
    intro lo m' hm hm' hread
    obtain ⟨a, b⟩ := c
    obtain ⟨hlo, ha, hb, htail⟩ := (wfFrom_cons _ _ _ _).1 hm
    cases m' with
    | nil => exact absurd (hread a ha) (read_cons_self_ne lo a b m [] hm rfl)
    | cons c' m' =>
      obtain ⟨a', b'⟩ := c'
      obtain ⟨hlo', ha', hb', htail'⟩ := (wfFrom_cons _ _ _ _).1 hm'
      rcases Nat.lt_trichotomy a a' with hlt | rfl | hlt
      · exact absurd (hread a ha)
          (read_cons_self_ne lo a b m _ hm ((wfFrom_cons _ _ _ _).2 ⟨hlt, ha', hb', htail'⟩))
      · have hbyte : b = b' := by simpa only [read_cons_self] using hread a ha
        have hrest : ∀ c, c < 4096 → read m c = read m' c := by
          intro c hc
          rcases Nat.lt_or_ge a c with hac | hac
          · have hne : c ≠ a := Nat.ne_of_gt hac
            simpa only [read_cons_ne _ _ _ _ hne] using hread c hc
          · rw [read_below m (a + 1) c htail (by omega), read_below m' (a + 1) c htail' (by omega)]
        rw [hbyte, ih (a + 1) m' htail htail' hrest]
      · exact absurd (hread a' ha').symm
          (read_cons_self_ne lo a' b' m' _ hm' ((wfFrom_cons _ _ _ _).2 ⟨hlt, ha, hb, htail⟩))

end Sys2Proof.Machine.Memory

/-! ### The parts determine the state -/

namespace Sys2Proof.Machine

theorem akNumber_injective : Function.Injective akNumber := by
  intro a b h
  cases a with
  | none => cases b with
    | none => rfl
    | some q => exact absurd h (Nat.succ_ne_zero q.val).symm
  | some r => cases b with
    | none => exact absurd h (Nat.succ_ne_zero r.val)
    | some q => exact congrArg some (Fin.ext (Nat.succ.inj h))

/-- The number of a status names it: the words of UnknownOpcode stand above all other numbers. -/
theorem Status.number_injective : Function.Injective Status.number := by
  intro a b h
  cases a <;> cases b
  case unknownOpcode.unknownOpcode op op' =>
    exact congrArg Status.unknownOpcode (BitVec.eq_of_toNat_eq (Nat.add_left_cancel h))
  all_goals simp [Status.number] at h ⊢ <;> omega

theorem toNat_bool_injective : Function.Injective Bool.toNat := by decide

/-- Two screens with the same pixels are the same screen. -/
theorem screen_ext (fb fb' : Screen) (h : ∀ xx yy, pixelOf fb xx yy = pixelOf fb' xx yy) : fb = fb' := by
  refine Vector.ext fun yy hyy => BitVec.eq_of_getLsbD_eq fun xx hxx => ?_
  exact h ⟨xx, hxx⟩ ⟨yy, hyy⟩

/-- Settles O15: each field is what its parts show, memory by `Memory.eq_of_read_eq`. -/
theorem partsDetermineTheState : Obligations.PartsDetermineTheState := by
  intro s t hs ht h
  have hv : s.v = t.v := Vector.ext fun r hr => BitVec.eq_of_toNat_eq (h (.v ⟨r, hr⟩))
  have hi : s.i = t.i := BitVec.eq_of_toNat_eq (h .i)
  have hpc : s.pc = t.pc := BitVec.eq_of_toNat_eq (h .pc)
  have hsp : s.sp = t.sp := Fin.ext (h .sp)
  have hstack : s.stack = t.stack := Vector.ext fun j hj => BitVec.eq_of_toNat_eq (h (.stack ⟨j, hj⟩))
  have hdt : s.dt = t.dt := BitVec.eq_of_toNat_eq (h .dt)
  have hst : s.st = t.st := BitVec.eq_of_toNat_eq (h .st)
  have hmem : s.mem = t.mem :=
    Memory.eq_of_read_eq s.mem 0 t.mem hs ht fun a ha => BitVec.eq_of_toNat_eq (h (.mem ⟨a, ha⟩))
  have hfb : s.fb = t.fb := screen_ext _ _ fun xx yy => toNat_bool_injective (h (.pixel xx yy))
  have hdf : s.df = t.df := toNat_bool_injective (h .df)
  have hk : s.k = t.k := BitVec.eq_of_toNat_eq (h .k)
  have hak : s.ak = t.ak := akNumber_injective (h .ak)
  have hkl : s.kl = t.kl := BitVec.eq_of_toNat_eq (h .kl)
  have hstatus : s.status = t.status := Status.number_injective (h .status)
  have hrnd : s.rndCount = t.rndCount := h .rndCount
  cases s
  cases t
  rw [State.mk.injEq]
  exact ⟨hv, hi, hpc, hsp, hstack, hdt, hst, hmem, hfb, hdf, hk, hak, hkl, hstatus, hrnd⟩

/-! ### What an instruction leaves unchanged -/

/-- The frame of a drawn sprite: DF and the pixels it hits aside, every part looks as before (45_display R167). -/
theorem look_display_drawSprite (s : State) (x0 y0 n : Nat) (p : Part) (hdf : p ≠ .df)
    (hmiss : ∀ xx yy, s.spriteHits x0 y0 n xx yy → p ≠ .pixel xx yy) :
    (s.display (drawSprite s x0 y0 n).1).look p = s.look p := by
  cases p with
  | pixel xx yy =>
    exact congrArg Bool.toNat (drawSprite_miss s x0 y0 n xx yy fun hit => hmiss xx yy hit rfl)
  | _ => exact State.look_display_frame s _ _ (by simp) hdf

theorem execDrwVxVyNibble_frame (x y : Reg) (n : Nat) (s t : State) (p : Part)
    (h : exec (.drwVxVyNibble x y n) s = .next t) (hp : ¬ MayWrite (.drwVxVyNibble x y n) s p) :
    t.look p = s.look p := by
  cases h
  simp only [MayWrite, not_or] at hp
  obtain ⟨hvf, hdf, hmiss⟩ := hp
  rw [State.look_setFlag, if_neg hvf]
  exact look_display_drawSprite s _ _ n p hdf fun xx yy hit e => hmiss ⟨xx, yy, hit, e⟩

theorem execLdVxMem_frame (x : Reg) (s t : State) (p : Part) (h : exec (.ldVxMem x) s = .next t)
    (hp : ¬ MayWrite (.ldVxMem x) s p) : t.look p = s.look p := by
  cases h
  rw [State.loadRegs_look]
  cases p with
  | v r =>
    have hr : ¬ r ≤ x := fun hle => hp ⟨r, hle, rfl⟩
    exact dif_neg fun hlt => hr (by simpa [Nat.lt_succ_iff] using hlt)
  | _ => rfl

/-- What CALL does (41_flow R112): its error at depth 16, else the push of PC and the jump. -/
theorem execCallAddr_cases (nnn : Addr) (s t : State) (h : exec (.callAddr nnn) s = .next t) :
    (s.sp.val = 16 ∧ t = s.raise .stackOverflow) ∨
    (s.sp.val < 16 ∧ t.mem = s.mem ∧ ∀ p, t.look p = match p with
      | .pc => (zextAddr nnn).toNat
      | .sp => s.sp.val + 1
      | .stack j => if j.val = s.sp.val then s.pc.toNat else s.look (.stack j)
      | p => s.look p) := by
  simp only [exec, execCallAddr] at h
  rcases State.push_spec s.pc s with ⟨hsp, hpush⟩ | ⟨hsp, u, hpush, -, hlook, hmem, -⟩
  · rw [hpush] at h
    cases h
    exact .inl ⟨hsp, rfl⟩
  · rw [hpush] at h
    cases h
    refine .inr ⟨hsp, hmem, fun p => ?_⟩
    rw [State.look_setPc, hlook]
    cases p <;> rfl

/-- What RET does (41_flow R111): its error at depth 0, else SP falls by 1 and PC takes the entry at the new SP. -/
theorem execRet_cases (s t : State) (h : exec .ret s = .next t) :
    (s.sp.val = 0 ∧ t = s.raise .stackUnderflow) ∨
    (0 < s.sp.val ∧ t.mem = s.mem ∧ ∃ j : Fin 16, j.val + 1 = s.sp.val ∧ ∀ p, t.look p = match p with
      | .pc => s.look (.stack j)
      | .sp => j.val
      | p => s.look p) := by
  simp only [exec, execRet] at h
  rcases State.pop_spec s with ⟨hsp, hpop⟩ | ⟨hsp, w, u, hpop, hentry, hsp', hlook, hmem, -⟩
  · rw [hpop] at h
    cases h
    exact .inl ⟨hsp, rfl⟩
  · rw [hpop] at h
    cases h
    have hj : u.sp.val < 16 := by omega
    refine .inr ⟨hsp, hmem, ⟨u.sp.val, hj⟩, hsp', fun p => ?_⟩
    rw [State.look_setPc]
    cases p with
    | pc => exact congrArg BitVec.toNat (hentry ⟨u.sp.val, hj⟩ hsp')
    | sp => rfl
    | _ => exact (if_neg nofun).trans (hlook _ nofun)

theorem execCallAddr_frame (nnn : Addr) (s t : State) (p : Part) (h : exec (.callAddr nnn) s = .next t)
    (hp : ¬ MayWrite (.callAddr nnn) s p) : t.look p = s.look p := by
  simp only [MayWrite] at hp
  rcases execCallAddr_cases nnn s t h with ⟨hsp, rfl⟩ | ⟨hsp, -, hlook⟩
  · rw [if_pos hsp] at hp
    rw [State.look_raise, if_neg hp]
  · rw [if_neg (Nat.ne_of_lt hsp)] at hp
    rw [hlook]
    cases p with
    | pc => exact absurd (.inl rfl) hp
    | sp => exact absurd (.inr (.inl rfl)) hp
    | stack j => exact if_neg fun hj => hp (.inr (.inr ⟨j, hj, rfl⟩))
    | _ => rfl

theorem execRet_frame (s t : State) (p : Part) (h : exec .ret s = .next t) (hp : ¬ MayWrite .ret s p) :
    t.look p = s.look p := by
  simp only [MayWrite] at hp
  rcases execRet_cases s t h with ⟨hsp, rfl⟩ | ⟨hsp, -, j, -, hlook⟩
  · rw [if_pos hsp] at hp
    rw [State.look_raise, if_neg hp]
  · rw [if_neg (Nat.ne_of_gt hsp)] at hp
    rw [hlook]
    cases p with
    | pc => exact absurd (.inl rfl) hp
    | sp => exact absurd (.inr rfl) hp
    | _ => rfl

/-- The frame of every instruction (10_state R45), by the operation its meaning is made of. -/
theorem exec_frame (i : Instr) (s t : State) (p : Part) (h : exec i s = .next t) (hp : ¬ MayWrite i s p) :
    t.look p = s.look p := by
  cases i with
  | callAddr nnn => exact execCallAddr_frame nnn s t p h hp
  | ret => exact execRet_frame s t p h hp
  | drwVxVyNibble x y n => exact execDrwVxVyNibble_frame x y n s t p h hp
  | ldVxMem x => exact execLdVxMem_frame x s t p h hp
  | cls =>
    cases h
    exact State.look_display_frame s p _ (fun xx yy e => hp (.inr ⟨xx, yy, e⟩)) fun e => hp (.inl e)
  | ldBVx x =>
    cases h
    exact State.memWrite_frame _ _ s p fun a j hj ha e => hp ⟨a, j, hj, ha, e⟩
  | ldMemVx x =>
    cases h
    refine State.memWrite_frame _ _ s p fun a j hj ha e => hp ⟨a, j, ?_, ha, e⟩
    rw [State.regsUpTo_length] at hj
    exact Nat.le_of_lt_succ hj
  | ldVxByte | addVxByte | ldVxVy | orVxVy | andVxVy | xorVxVy | ldVxDT =>
    cases h
    exact (State.look_setV s p _ _).trans (if_neg hp)
  | addVxVy | subVxVy | shrVx | subnVxVy | shlVx =>
    cases h
    obtain ⟨hx, hvf⟩ := not_or.1 hp
    rw [State.look_setResultThenFlag, if_neg hvf, if_neg hx]
  | rndVxByte x kk =>
    cases h
    obtain ⟨hx, hcount⟩ := not_or.1 hp
    rw [State.look_countRnd, if_neg hcount, rndWith, State.look_setV, if_neg hx]
  | ldIAddr | addIVx | ldFVx =>
    cases h
    exact (State.look_setI s p _).trans (if_neg hp)
  | jpAddr | jpV0Addr =>
    cases h
    exact (State.look_setPc s p _).trans (if_neg hp)
  | seVxByte | sneVxByte | seVxVy | sneVxVy | skpVx | sknpVx =>
    cases h
    exact (skipIf_look _ s p).trans (if_neg hp)
  | ldDTVx x =>
    cases h
    exact (State.look_setDT s p _).trans (if_neg hp)
  | ldSTVx x =>
    cases h
    exact (State.look_setST s p _).trans (if_neg hp)
  | ldVxK x =>
    cases h
    obtain ⟨hak, hkl⟩ := not_or.1 hp
    rw [State.look_latchKeys, if_neg hkl, State.look_setAK, if_neg hak]

/-- Settles O14: the frame of every instruction, `exec_frame`, is its statement. -/
theorem onlyListedWritersWrite : Obligations.OnlyListedWritersWrite := exec_frame

/-! ### The invariant

Each part of the invariant is kept because its few writers keep it; every other instruction leaves the part as it was,
by `exec_frame`. -/

theorem zextAddr_lt (nnn : Addr) : (zextAddr nnn).toNat < 4096 := by
  rw [zextAddr, BitVec.toNat_setWidth_of_le (by decide)]
  exact nnn.isLt

theorem glyphAddr_lt : ∀ d : Fin 16, (glyphAddr d).toNat < 4096 := by decide

/-- The largest target of `JP V0,addr` is 0xFFF + 0xFF (10_state R26). -/
theorem v0Target_le (s : State) (nnn : Addr) : (s.v0Target nnn).toNat ≤ 0x10FE := by
  have hbase := zextAddr_lt nnn
  have hoffset := (s.getV 0).isLt
  rw [State.v0Target, BitVec.toNat_add, BitVec.toNat_setWidth_of_le (by decide)]
  omega

theorem skipIf_mem (c : Bool) (s : State) : (skipIf c s).mem = s.mem := by
  cases c <;> rfl

theorem toNat_add_two (w : Word) (h : w.toNat ≤ 0x10FE) : (w + 2).toNat = w.toNat + 2 := by
  bv_omega

theorem skipIf_pc_le (c : Bool) (s : State) (h : s.pc.toNat ≤ 0x1000) : (skipIf c s).pc.toNat ≤ 0x10FE := by
  rw [skipIf_pc]
  split
  · rw [toNat_add_two _ (Nat.le_trans h (by decide))]
    omega
  · omega

@[simp] theorem loadRegs_mem (bs : List Byte) : ∀ (j : Nat) (s : State), (State.loadRegs j bs s).mem = s.mem := by
  induction bs with
  | nil => intros; rfl
  | cons b bs ih =>
    intro j s
    unfold State.loadRegs
    split
    · rw [ih, State.setV_mem]
    · rfl

/-- Only Fx33 and Fx55 touch the memory list at all. -/
theorem exec_mem (i : Instr) (s t : State) (h : exec i s = .next t) (hB : ∀ x, i ≠ .ldBVx x)
    (hM : ∀ x, i ≠ .ldMemVx x) : t.mem = s.mem := by
  cases i with
  | ldBVx x => exact absurd rfl (hB x)
  | ldMemVx x => exact absurd rfl (hM x)
  | callAddr nnn =>
    rcases execCallAddr_cases nnn s t h with ⟨-, rfl⟩ | ⟨-, hmem, -⟩
    · rfl
    · exact hmem
  | ret =>
    rcases execRet_cases s t h with ⟨-, rfl⟩ | ⟨-, hmem, -⟩
    · rfl
    · exact hmem
  | ldVxMem x =>
    cases h
    exact loadRegs_mem _ _ _
  | seVxByte | sneVxByte | seVxVy | sneVxVy | skpVx | sknpVx =>
    cases h
    exact skipIf_mem _ _
  | _ =>
    cases h
    rfl

theorem exec_keeps_memory_canonical (i : Instr) (s t : State) (h : exec i s = .next t)
    (hs : Memory.wf s.mem = true) : Memory.wf t.mem = true := by
  cases i with
  | ldBVx | ldMemVx =>
    cases h
    exact State.memWrite_wf _ _ s hs
  | _ => rwa [exec_mem _ s t h (by simp) (by simp)]

theorem exec_keeps_index_in_range (i : Instr) (s t : State) (h : exec i s = .next t) (hs : s.look .i < 4096) :
    t.look .i < 4096 := by
  cases i with
  | ldIAddr nnn =>
    cases h
    exact zextAddr_lt nnn
  | addIVx x =>
    cases h
    have := Nat.mod_lt (s.i.toNat + (s.getV x).toNat) (show 0 < 4096 by decide)
    simp only [State.look, State.setI_i, BitVec.toNat_ofNat]
    omega
  | ldFVx x =>
    cases h
    exact glyphAddr_lt _
  | _ => rwa [exec_frame _ s t .i h (by simp [MayWrite])]

/-- PC after an instruction, from at most 0x1000, where a fetch leaves it: a skip adds 2, a jump goes below 0x1000, RET
to a stack entry and `JP V0,addr` up to 0x10FE. -/
theorem exec_keeps_pc_in_range (i : Instr) (s t : State) (h : exec i s = .next t) (hs : s.look .pc ≤ 0x1000)
    (hstack : ∀ j, s.look (.stack j) ≤ 4096) : t.look .pc ≤ 0x10FE := by
  cases i with
  | jpAddr nnn =>
    cases h
    exact Nat.le_trans (Nat.le_of_lt (zextAddr_lt nnn)) (by decide)
  | jpV0Addr nnn =>
    cases h
    exact v0Target_le s nnn
  | callAddr nnn =>
    rcases execCallAddr_cases nnn s t h with ⟨-, rfl⟩ | ⟨-, -, hlook⟩
    · exact Nat.le_trans hs (by decide)
    · rw [hlook]
      exact Nat.le_trans (Nat.le_of_lt (zextAddr_lt nnn)) (by decide)
  | ret =>
    rcases execRet_cases s t h with ⟨-, rfl⟩ | ⟨-, -, j, -, hlook⟩
    · exact Nat.le_trans hs (by decide)
    · rw [hlook]
      exact Nat.le_trans (hstack j) (by decide)
  | seVxByte | sneVxByte | seVxVy | sneVxVy | skpVx | sknpVx =>
    cases h
    exact skipIf_pc_le _ s hs
  | _ =>
    rw [exec_frame _ s t .pc h (by simp [MayWrite])]
    exact Nat.le_trans hs (by decide)

/-- The one entry written, by CALL, is the PC it runs at. -/
theorem exec_keeps_stack_in_range (i : Instr) (s t : State) (h : exec i s = .next t) (hs : s.look .pc ≤ 0x1000)
    (hstack : ∀ j, s.look (.stack j) ≤ 4096) (j : Fin 16) : t.look (.stack j) ≤ 4096 := by
  cases i with
  | callAddr nnn =>
    rcases execCallAddr_cases nnn s t h with ⟨-, rfl⟩ | ⟨-, -, hlook⟩
    · exact hstack j
    · rw [hlook]
      simp only
      split
      · exact hs
      · exact hstack j
  | _ =>
    rw [exec_frame _ s t (.stack j) h (by simp [MayWrite])]
    exact hstack j

/-- An instruction keeps the invariant from a state in which PC has been advanced from a fetch in bounds. -/
theorem exec_keeps_inv (i : Instr) (s t : State) (h : exec i s = .next t) (hs : Inv s) (hpc : s.pc.toNat ≤ 0x1000) :
    Inv t where
  memCanonical := exec_keeps_memory_canonical i s t h hs.memCanonical
  indexInRange := exec_keeps_index_in_range i s t h hs.indexInRange
  pcInRange := exec_keeps_pc_in_range i s t h hpc hs.stackInRange
  stackInRange := exec_keeps_stack_in_range i s t h hpc hs.stackInRange

namespace Inv

/-- The invariant speaks of memory, I, PC and the stack only. -/
theorem congr {s t : State} (hs : Inv s) (hmem : t.mem = s.mem) (hi : t.i = s.i) (hpc : t.pc = s.pc)
    (hstack : t.stack = s.stack) : Inv t where
  memCanonical := hmem ▸ hs.memCanonical
  indexInRange := hi ▸ hs.indexInRange
  pcInRange := hpc ▸ hs.pcInRange
  stackInRange := hstack ▸ hs.stackInRange

theorem setPc {s : State} (hs : Inv s) (w : Word) (hw : w.toNat ≤ 0x10FE) : Inv (s.setPc w) :=
  ⟨hs.memCanonical, hs.indexInRange, hw, hs.stackInRange⟩

theorem finish {s : State} (hs : Inv s) : Inv s.finish := by
  unfold State.finish
  split
  · exact hs.congr rfl rfl rfl rfl
  · exact hs

/-- The poll of a key wait writes a register and the key state only (46_timer_key R180). -/
theorem waitCycle {s : State} (hs : Inv s) (r : Reg) : Inv (waitCycle r s) := by
  unfold Machine.waitCycle State.waitingStep
  split <;> exact hs.congr rfl rfl rfl rfl

/-- The start of a fetching step: the error is forgotten and PC advances, to at most 0x1000. -/
theorem advance {s : State} (hs : Inv s) {op : Word} (hf : s.fetches op) :
    Inv s.forgetError.addPc2 ∧ s.forgetError.addPc2.pc.toNat ≤ 0x1000 := by
  obtain ⟨-, hbound, -⟩ := hf
  have hpc : (s.pc + 2).toNat ≤ 0x1000 := by
    rw [toNat_add_two _ hs.pcInRange]
    omega
  exact ⟨(hs.congr rfl rfl rfl rfl : Inv s.forgetError).setPc _ (Nat.le_trans hpc (by decide)), hpc⟩

end Inv

theorem finishResult_eq_next (r : Result) (t : State) (h : finishResult r = .next t) :
    ∃ u, r = .next u ∧ t = u.finish := by
  cases r with
  | next u => exact ⟨u, rfl, (Host.Outcome.next.inj h).symm⟩
  | fault f => cases h
  | refused f => cases h

/-- Settles O17, by the four things a step can do (`step_cases`): a poll and a failed fetch leave what the invariant
speaks of, the other two advance PC from a fetch in bounds, and then `exec_keeps_inv` applies. -/
theorem stepKeepsTheInvariant : Obligations.StepKeepsTheInvariant := by
  intro s t hs h
  rcases step_cases s with ⟨r, -, hwait⟩ | ⟨-, -, hfail⟩ | ⟨op, hf, -, hunknown⟩ | ⟨op, i, hf, -, hrun⟩
  · obtain rfl := Host.Outcome.next.inj (hwait.symm.trans h)
    exact hs.waitCycle r
  · obtain rfl := Host.Outcome.next.inj (hfail.symm.trans h)
    exact hs.congr rfl rfl rfl rfl
  · obtain rfl := Host.Outcome.next.inj (hunknown.symm.trans h)
    exact (hs.advance hf).1.congr rfl rfl rfl rfl
  · obtain ⟨u, hexec, rfl⟩ := finishResult_eq_next _ t (hrun.symm.trans h)
    obtain ⟨hadvanced, hpc⟩ := hs.advance hf
    exact (exec_keeps_inv i _ u hexec hadvanced hpc).finish

/-- Settles O18, by evaluating each bound at the reset state. -/
theorem resetMeetsTheInvariant : Obligations.ResetMeetsTheInvariant where
  memCanonical := Memory.wf_reset
  indexInRange := by decide
  pcInRange := by decide
  stackInRange := by decide

/-! ### Reset -/

theorem fontset_length : fontset.length = 80 := rfl

theorem resetByte_of_lt (a : Nat) (h : a < fontset.length) : resetByte a = fontset[a] :=
  List.getD_eq_getElem fontset 0 h

theorem resetByte_of_ge (a : Nat) (h : 80 ≤ a) : resetByte a = 0 :=
  List.getD_eq_default fontset 0 (by rwa [fontset_length])

theorem look_reset_mem (a : Fin 4096) : State.reset.look (.mem a) = (resetByte a.val).toNat := rfl

/-- Settles O20: the fields by their reset values, a byte by the fontset's entry or by its end. -/
theorem resetLeavesTheListedValues : Obligations.ResetLeavesTheListedValues := by
  refine ⟨?_, fontset_length, ?_, ?_⟩
  · intro p hmem hstatus hrnd
    cases p with
    | mem a => exact absurd rfl (hmem a)
    | status => exact absurd rfl hstatus
    | rndCount => exact absurd rfl hrnd
    | v r => simp [State.look, State.getV, State.reset]
    | stack j => simp [State.look, State.reset]
    | pixel xx yy => exact congrArg Bool.toNat (pixelOf_blankScreen xx yy)
    | _ => rfl
  · intro a ha
    rw [look_reset_mem, resetByte_of_lt a.val ha]
  · intro a ha
    rw [look_reset_mem, resetByte_of_ge a.val ha]
    rfl

end Sys2Proof.Machine

/-! ## Proofs of family 20_memory: stores and the fetch -/

namespace Sys2Proof.Machine

/-- `LD [I],Vx` leaves register j, up to x, at the effective address (I + j) mod 4096 (44_index_memory R155): its at
most 16 bytes do not overlap. -/
theorem readByte_storedRegs (x j : Reg) (s : State) (hs : Memory.wf s.mem = true) (hj : j ≤ x) :
    (State.memWrite s.i.toNat (s.regsUpTo x) s).readByte (s.effAddr j.val) = s.getV j := by
  have hlength : (s.regsUpTo x).length ≤ 4096 := by
    rw [State.regsUpTo_length]
    omega
  have hstored : j.val < (s.regsUpTo x).length := by
    rw [State.regsUpTo_length]
    exact Nat.lt_succ_of_le hj
  rw [State.effAddr, State.memWrite_readByte_inside _ _ s j.val hs hlength hstored, State.regsUpTo_getElem]

/-- Settles O40: PC and PC + 1 are the effective addresses of registers j and j + 1, since the sum I + j does not wrap
between them, and a store moves neither PC nor the key wait. -/
theorem storeIsSeenByTheNextFetch : Obligations.StoreIsSeenByTheNextFetch := by
  intro x j j' s hs hak hsucc hj' hpc hbound
  have hj : j ≤ x := Nat.le_trans (by omega : j.val ≤ j'.val) hj'
  have haddr : s.pc.toNat = s.effAddr j.val := hpc
  have haddr' : s.pc.toNat + 1 = s.effAddr j'.val := by
    rw [State.effAddr]
    omega
  refine ⟨_, rfl, ?_, ?_, ?_⟩
  · rwa [State.memWrite_ak]
  · rwa [State.memWrite_pc]
  · rw [State.memWrite_pc, wordOfBytes_toNat, haddr', haddr, readByte_storedRegs x j s hs hj,
      readByte_storedRegs x j' s hs hj']

end Sys2Proof.Machine

/-! ## Proofs of family 30_encoding: the decoder and the encoder -/

namespace Sys2Proof

/-! ### The decoder reads back what the encoder wrote -/

/-- The fields of an encoded word, format by format, are the operands it was made of, and its family and trailing
fields select the constructor again (30_encoding R71 to R74). -/
theorem decodeWord_encode (i : Instr) (hi : WellFormed i = true) : decodeWord (encode i) = some i := by
  cases i with
  | cls | ret => rfl
  | jpAddr nnn | callAddr nnn | ldIAddr nnn | jpV0Addr nnn =>
    simp [encode, decodeWord, fieldFam_encodeA, fieldNNN_encodeA]
  | seVxByte x kk | sneVxByte x kk | ldVxByte x kk | addVxByte x kk | rndVxByte x kk =>
    simp [encode, decodeWord, fieldFam_encodeXK, fieldX_encodeXK, fieldKK_encodeXK]
  | seVxVy x y | sneVxVy x y =>
    simp [encode, decodeWord, fieldFam_encodeXYN, fieldX_encodeXYN, fieldY_encodeXYN, fieldN_encodeXYN]
  | ldVxVy x y | orVxVy x y | andVxVy x y | xorVxVy x y | addVxVy x y | subVxVy x y | shrVx x y | subnVxVy x y
  | shlVx x y =>
    simp [encode, decodeWord, decodeFam8, fieldFam_encodeXYN, fieldX_encodeXYN, fieldY_encodeXYN, fieldN_encodeXYN]
  | drwVxVyNibble x y n =>
    have hn : n < 16 := of_decide_eq_true hi
    simp [encode, decodeWord, fieldFam_encodeXYN, fieldX_encodeXYN, fieldY_encodeXYN, fieldN_encodeXYN, hn]
  | skpVx x | sknpVx x =>
    simp [encode, decodeWord, decodeFamE, fieldFam_encodeXK, fieldX_encodeXK, fieldKK_encodeXK]
  | ldVxDT x | ldVxK x | ldDTVx x | ldSTVx x | addIVx x | ldFVx x | ldBVx x | ldMemVx x | ldVxMem x =>
    simp [encode, decodeWord, decodeFamF, fieldFam_encodeXK, fieldX_encodeXK, fieldKK_encodeXK]

/-- Settles O2: the word by its format's fields, the bytes by the word they make. -/
theorem decodeOfEncode : Obligations.DecodeOfEncode := by
  intro i hi
  have hword := decodeWord_encode i hi
  refine ⟨hword, fun rest => ?_⟩
  rw [encodeBytes, decodeBytes_bytesOfWord, hword]

/-! ### A word that decodes is put together again from its fields -/

/-- Format `A`: the word is its family and its address. -/
theorem encodeA_of_fieldFam (op : Word) (fam : Nat) (hfam : fieldFam op = fam) : encodeA fam (fieldNNN op) = op := by
  rw [← hfam, encodeA_fields]

/-- Format `XK`: the word is its family, its register and its byte. -/
theorem encodeXK_of_fieldFam (op : Word) (fam : Nat) (hfam : fieldFam op = fam) :
    encodeXK fam (fieldX op) (fieldKK op) = op := by
  rw [← hfam, encodeXK_fields]

/-- Format `XS`: the trailing byte is the one the decoder has compared. -/
theorem encodeXK_of_fieldKK (op : Word) (fam : Nat) (sub : Byte) (hfam : fieldFam op = fam)
    (hsub : (fieldKK op).toNat = sub.toNat) : encodeXK fam (fieldX op) sub = op := by
  rw [← BitVec.eq_of_toNat_eq hsub, encodeXK_of_fieldFam op fam hfam]

/-- Formats `XY` and `XYN`: the word is its family, its two registers and its trailing nibble. -/
theorem encodeXYN_of_fieldN (op : Word) (fam n : Nat) (hfam : fieldFam op = fam) (hn : fieldN op = n) :
    encodeXYN fam (fieldX op) (fieldY op) n = op := by
  rw [← hfam, ← hn, encodeXYN_fields]

theorem wellFormed_and_encode_of_decodeFam0 (op : Word) (i : Instr) (h : decodeFam0 op = some i) :
    WellFormed i = true ∧ encode i = op := by
  unfold decodeFam0 at h
  split at h <;> cases h
  all_goals
    next hop => exact ⟨rfl, BitVec.eq_of_toNat_eq hop.symm⟩

theorem wellFormed_and_encode_of_decodeFam8 (op : Word) (i : Instr) (hfam : fieldFam op = 0x8)
    (h : decodeFam8 op = some i) : WellFormed i = true ∧ encode i = op := by
  unfold decodeFam8 at h
  split at h <;> cases h
  all_goals
    next hn => exact ⟨rfl, encodeXYN_of_fieldN op 0x8 _ hfam hn⟩

theorem wellFormed_and_encode_of_decodeFamE (op : Word) (i : Instr) (hfam : fieldFam op = 0xE)
    (h : decodeFamE op = some i) : WellFormed i = true ∧ encode i = op := by
  unfold decodeFamE at h
  split at h <;> cases h
  all_goals
    next hsub => exact ⟨rfl, encodeXK_of_fieldKK op 0xE _ hfam hsub⟩

theorem wellFormed_and_encode_of_decodeFamF (op : Word) (i : Instr) (hfam : fieldFam op = 0xF)
    (h : decodeFamF op = some i) : WellFormed i = true ∧ encode i = op := by
  unfold decodeFamF at h
  split at h <;> cases h
  all_goals
    next hsub => exact ⟨rfl, encodeXK_of_fieldKK op 0xF _ hfam hsub⟩

/-- Settles O3: family by family, in the order of the decoder's table, the format of the constructor puts the fields of
the word together again. -/
theorem encodeOfDecode : Obligations.EncodeOfDecode := by
  intro op i h
  unfold decodeWord at h
  split at h
  next => exact wellFormed_and_encode_of_decodeFam0 op i h
  next hfam => cases h; exact ⟨rfl, encodeA_of_fieldFam op 0x1 hfam⟩
  next hfam => cases h; exact ⟨rfl, encodeA_of_fieldFam op 0x2 hfam⟩
  next hfam => cases h; exact ⟨rfl, encodeXK_of_fieldFam op 0x3 hfam⟩
  next hfam => cases h; exact ⟨rfl, encodeXK_of_fieldFam op 0x4 hfam⟩
  next hfam =>
    obtain ⟨hn, hi⟩ := Option.ite_none_right_eq_some.1 h
    cases hi; exact ⟨rfl, encodeXYN_of_fieldN op 0x5 0 hfam hn⟩
  next hfam => cases h; exact ⟨rfl, encodeXK_of_fieldFam op 0x6 hfam⟩
  next hfam => cases h; exact ⟨rfl, encodeXK_of_fieldFam op 0x7 hfam⟩
  next hfam => exact wellFormed_and_encode_of_decodeFam8 op i hfam h
  next hfam =>
    obtain ⟨hn, hi⟩ := Option.ite_none_right_eq_some.1 h
    cases hi; exact ⟨rfl, encodeXYN_of_fieldN op 0x9 0 hfam hn⟩
  next hfam => cases h; exact ⟨rfl, encodeA_of_fieldFam op 0xA hfam⟩
  next hfam => cases h; exact ⟨rfl, encodeA_of_fieldFam op 0xB hfam⟩
  next hfam => cases h; exact ⟨rfl, encodeXK_of_fieldFam op 0xC hfam⟩
  next hfam => cases h; exact ⟨decide_eq_true (fieldN_lt op), encodeXYN_of_fieldN op 0xD _ hfam rfl⟩
  next hfam => exact wellFormed_and_encode_of_decodeFamE op i hfam h
  next hfam => exact wellFormed_and_encode_of_decodeFamF op i hfam h
  next => cases h

/-! ### The rows of the opcode table -/

end Sys2Proof

namespace Sys2Proof.Laws.OpcodeRow

/-- The word of every well-formed instruction is in the instruction's own row. -/
theorem encode_mem_row : ∀ i : Instr, Statement i
  | .cls => cls
  | .ret => ret
  | .jpAddr nnn => jpAddr nnn
  | .callAddr nnn => callAddr nnn
  | .seVxByte x kk => seVxByte x kk
  | .sneVxByte x kk => sneVxByte x kk
  | .seVxVy x y => seVxVy x y
  | .ldVxByte x kk => ldVxByte x kk
  | .addVxByte x kk => addVxByte x kk
  | .ldVxVy x y => ldVxVy x y
  | .orVxVy x y => orVxVy x y
  | .andVxVy x y => andVxVy x y
  | .xorVxVy x y => xorVxVy x y
  | .addVxVy x y => addVxVy x y
  | .subVxVy x y => subVxVy x y
  | .shrVx x y => shrVx x y
  | .subnVxVy x y => subnVxVy x y
  | .shlVx x y => shlVx x y
  | .sneVxVy x y => sneVxVy x y
  | .ldIAddr nnn => ldIAddr nnn
  | .jpV0Addr nnn => jpV0Addr nnn
  | .rndVxByte x kk => rndVxByte x kk
  | .drwVxVyNibble x y n => drwVxVyNibble x y n
  | .skpVx x => skpVx x
  | .sknpVx x => sknpVx x
  | .ldVxDT x => ldVxDT x
  | .ldVxK x => ldVxK x
  | .ldDTVx x => ldDTVx x
  | .ldSTVx x => ldSTVx x
  | .addIVx x => addIVx x
  | .ldFVx x => ldFVx x
  | .ldBVx x => ldBVx x
  | .ldMemVx x => ldMemVx x
  | .ldVxMem x => ldVxMem x

end Sys2Proof.Laws.OpcodeRow

namespace Sys2Proof

/-- The mask of a row covers whatever `part` its own bits cover, so there the word agrees with the row's match. -/
theorem and_part_of_and_mask (op mask w part : Word) (hpart : mask &&& part = part) (h : op &&& mask = w) :
    op &&& part = w &&& part := by
  rw [← h, BitVec.and_assoc, hpart]

theorem fieldFam_of_and_mask (op mask w : Word) (hmask : mask &&& 0xF000 = 0xF000) (h : op &&& mask = w) :
    fieldFam op = w.toNat / 0x1000 := by
  have hpart := congrArg BitVec.toNat (and_part_of_and_mask op mask w 0xF000 hmask h)
  have hop := fieldFam_lt op
  have hw := fieldFam_lt w
  simp only [and_F000, BitVec.toNat_ofNat] at hpart
  rw [show w.toNat / 0x1000 = fieldFam w from rfl]
  omega

theorem fieldN_of_and_mask (op mask w : Word) (hmask : mask &&& 0x000F = 0x000F) (h : op &&& mask = w) :
    fieldN op = w.toNat % 0x10 := by
  have hpart := congrArg BitVec.toNat (and_part_of_and_mask op mask w 0x000F hmask h)
  have hop := fieldN_lt op
  have hw := fieldN_lt w
  simp only [and_000F, BitVec.toNat_ofNat] at hpart
  rw [show w.toNat % 0x10 = fieldN w from rfl]
  omega

theorem fieldKK_toNat (op : Word) : (fieldKK op).toNat = op.toNat % 0x100 := BitVec.toNat_ofNat op.toNat 8

theorem fieldKK_of_and_mask (op mask w : Word) (hmask : mask &&& 0x00FF = 0x00FF) (h : op &&& mask = w) :
    (fieldKK op).toNat = w.toNat % 0x100 := by
  have hpart := congrArg BitVec.toNat (and_part_of_and_mask op mask w 0x00FF hmask h)
  simp only [and_00FF, BitVec.toNat_setWidth, fieldKK_toNat] at hpart
  rw [fieldKK_toNat]
  omega

/-- Every row compares the family nibble (30_encoding R75). -/
theorem opcodeRow_mask_family (j : Instr) : (opcodeRow j).1 &&& 0xF000 = 0xF000 := by
  cases j <;> (simp only [opcodeRow]; decide)

/-- A word in the row of an instruction decodes to an instruction of that row: the family and the trailing field the
mask covers are all that the decoder compares. -/
theorem decodeWord_of_mem_row (op : Word) (j : Instr) (h : op &&& (opcodeRow j).1 = (opcodeRow j).2) :
    ∃ i, decodeWord op = some i ∧ opcodeRow i = opcodeRow j := by
  have hfam := fieldFam_of_and_mask op _ _ (opcodeRow_mask_family j) h
  cases j with
  | cls | ret =>
    obtain rfl : op = _ := BitVec.and_allOnes.symm.trans h
    exact ⟨_, rfl, rfl⟩
  | jpAddr | callAddr | seVxByte | sneVxByte | ldVxByte | addVxByte | ldIAddr | jpV0Addr | rndVxByte
  | drwVxVyNibble =>
    simp [decodeWord, hfam, opcodeRow]
  | seVxVy | sneVxVy =>
    have hn := fieldN_of_and_mask op _ _ (by simp [opcodeRow]) h
    simp [decodeWord, hfam, hn, opcodeRow]
  | ldVxVy | orVxVy | andVxVy | xorVxVy | addVxVy | subVxVy | shrVx | subnVxVy | shlVx =>
    have hn := fieldN_of_and_mask op _ _ (by simp [opcodeRow]) h
    simp [decodeWord, decodeFam8, hfam, hn, opcodeRow]
  | skpVx | sknpVx =>
    have hkk := fieldKK_of_and_mask op _ _ (by simp [opcodeRow]) h
    simp [decodeWord, decodeFamE, hfam, hkk, opcodeRow]
  | ldVxDT | ldVxK | ldDTVx | ldSTVx | addIVx | ldFVx | ldBVx | ldMemVx | ldVxMem =>
    have hkk := fieldKK_of_and_mask op _ _ (by simp [opcodeRow]) h
    simp [decodeWord, decodeFamF, hfam, hkk, opcodeRow]

/-- Settles O4: a word that decodes is the instruction's own word (O3), which is in its row; a word in a row has the
family and the trailing field the decoder compares. -/
theorem opcodeRowsDecideDecoding : Obligations.OpcodeRowsDecideDecoding := by
  refine ⟨fun op i h => ?_, decodeWord_of_mem_row⟩
  obtain ⟨hwf, rfl⟩ := encodeOfDecode op i h
  exact Laws.OpcodeRow.encode_mem_row i hwf

/-! ### The unrecognized words -/

theorem decodeFam0_eq_none_iff (op : Word) : decodeFam0 op = none ↔ op.toNat ≠ 0x00E0 ∧ op.toNat ≠ 0x00EE := by
  unfold decodeFam0
  split <;> simp_all

theorem decodeFam8_eq_none_iff (op : Word) :
    decodeFam8 op = none ↔ fieldN op ∈ [0x8, 0x9, 0xA, 0xB, 0xC, 0xD, 0xF] := by
  have hn := fieldN_lt op
  unfold decodeFam8
  split
  case h_10 =>
    refine iff_of_true rfl ?_
    simp only [imp_false, List.mem_cons, List.not_mem_nil] at *
    omega
  all_goals
    next hnibble => simp [hnibble]

theorem decodeFamE_eq_none_iff (op : Word) : decodeFamE op = none ↔ op.toNat % 256 ∉ [0x9E, 0xA1] := by
  rw [← fieldKK_toNat]
  unfold decodeFamE
  split <;> simp_all

theorem decodeFamF_eq_none_iff (op : Word) :
    decodeFamF op = none ↔ op.toNat % 256 ∉ [0x07, 0x0A, 0x15, 0x18, 0x1E, 0x29, 0x33, 0x55, 0x65] := by
  rw [← fieldKK_toNat]
  unfold decodeFamF
  split <;> simp_all

/-- Settles O5: one family at a time; a word outside the families 0, 5, 8, 9, E and F always decodes. -/
theorem unrecognizedWordsAreTheListed : Obligations.UnrecognizedWordsAreTheListed := by
  intro op
  have hlt := fieldFam_lt op
  rw [show op.toNat / 4096 = fieldFam op from rfl, show op.toNat % 16 = fieldN op from rfl]
  unfold decodeWord
  split
  -- the decoder's row `k + 1` is family `k`
  case h_1 hfam => simp [hfam, decodeFam0_eq_none_iff]
  case h_6 hfam | h_10 hfam => simp [hfam]
  case h_9 hfam => simp [hfam, decodeFam8_eq_none_iff]
  case h_15 hfam => simp [hfam, decodeFamE_eq_none_iff]
  case h_16 hfam => simp [hfam, decodeFamF_eq_none_iff]
  case h_17 => grind
  all_goals
    next hfam => simp [hfam]

/-- Settles O1 by running the decoder on the words. -/
theorem sampleWordsDecode : Obligations.SampleWordsDecode := by
  unfold Obligations.SampleWordsDecode
  decide

end Sys2Proof

/-! ## Proofs of family 40_step_cycle: the step -/

namespace Sys2Proof.Machine

/-! ### Every state has a next state -/

/-- No instruction faults or refuses: at their limits CALL and RET answer the state with an error status. -/
theorem exec_total (i : Instr) (s : State) : ∃ t, exec i s = .next t := by
  cases i with
  | callAddr nnn =>
    rw [exec, execCallAddr]
    cases s.push s.pc <;> exact ⟨_, rfl⟩
  | ret =>
    rw [exec, execRet]
    cases s.pop <;> exact ⟨_, rfl⟩
  | _ => exact ⟨_, rfl⟩

/-- Settles O11: of the four things a step can do (`step_cases`) three name their next state, and the fourth runs an
instruction, which has one (`exec_total`). -/
theorem stepIsTotal : Obligations.StepIsTotal := by
  intro s
  rcases step_cases s with ⟨r, -, hwait⟩ | ⟨-, -, hfail⟩ | ⟨op, -, -, hunknown⟩ | ⟨op, i, -, -, hrun⟩
  · exact ⟨_, hwait⟩
  · exact ⟨_, hfail⟩
  · exact ⟨_, hunknown⟩
  · obtain ⟨u, hexec⟩ := exec_total i s.forgetError.addPc2
    exact ⟨u.finish, by rw [hrun, hexec, finishResult]⟩

/-! ### What a step never does -/

/-- The parts a step writes whatever instruction it runs, if any: the poll of a key wait writes a register, AK and KL,
a fetching step advances PC, the tick writes the timers, and the status is reported (40_step_cycle R90, 46_timer_key
R180). -/
def StepItselfWrites : Part → Prop
  | .v _ | .pc | .dt | .st | .ak | .kl | .status => True
  | .i | .sp | .stack _ | .mem _ | .pixel _ _ | .df | .k | .rndCount => False

theorem look_finish (s : State) (p : Part) (hp : ¬ StepItselfWrites p) : s.finish.look p = s.look p := by
  have hdt : p ≠ .dt := by rintro rfl; exact hp trivial
  have hst : p ≠ .st := by rintro rfl; exact hp trivial
  unfold State.finish
  split
  · rw [State.look_tick, if_neg hdt, if_neg hst]
  · rfl

theorem look_waitCycle (r : Reg) (s : State) (p : Part) (hp : ¬ StepItselfWrites p) :
    (waitCycle r s).look p = s.look p := by
  unfold waitCycle State.waitingStep
  cases p with
  | v | pc | dt | st | ak | kl | status => exact absurd trivial hp
  | _ => split <;> rfl

theorem look_advance (s : State) (p : Part) (hpc : p ≠ .pc) (hstatus : p ≠ .status) :
    s.forgetError.addPc2.look p = s.look p := by
  rw [State.look_addPc2, if_neg hpc, State.look_forgetError, if_neg hstatus]

/-- The frame of a step: a part that the step does not write itself looks as before, unless the step ran an instruction
that may write it. -/
theorem step_frame (s t : State) (p : Part) (hp : ¬ StepItselfWrites p) (h : step s = .next t) :
    t.look p = s.look p ∨
    ∃ op i u, s.fetches op ∧ decodeWord op = some i ∧ MayWrite i s.forgetError.addPc2 p ∧
      exec i s.forgetError.addPc2 = .next u ∧ t = u.finish := by
  have hpc : p ≠ .pc := by rintro rfl; exact hp trivial
  have hstatus : p ≠ .status := by rintro rfl; exact hp trivial
  rcases step_cases s with ⟨r, -, hwait⟩ | ⟨-, -, hfail⟩ | ⟨op, -, -, hunknown⟩ | ⟨op, i, hf, hd, hrun⟩
  · obtain rfl := Host.Outcome.next.inj (hwait.symm.trans h)
    exact .inl (look_waitCycle r s p hp)
  · obtain rfl := Host.Outcome.next.inj (hfail.symm.trans h)
    exact .inl (by rw [State.look_raise, if_neg hstatus])
  · obtain rfl := Host.Outcome.next.inj (hunknown.symm.trans h)
    exact .inl (by rw [State.look_raise, if_neg hstatus, look_advance s p hpc hstatus])
  · obtain ⟨u, hexec, rfl⟩ := finishResult_eq_next _ t (hrun.symm.trans h)
    by_cases hmay : MayWrite i s.forgetError.addPc2 p
    · exact .inr ⟨op, i, u, hf, hd, hmay, hexec, rfl⟩
    · exact .inl (by rw [look_finish u p hp, exec_frame i _ u p hexec hmay, look_advance s p hpc hstatus])

theorem not_mayWrite_k (i : Instr) (s : State) : ¬ MayWrite i s .k := by
  cases i <;> simp [MayWrite]

/-- An instruction that may write DF sets it (10_state R37). -/
theorem exec_sets_df (i : Instr) (s t : State) (h : exec i s = .next t) (hp : MayWrite i s .df) : t.df = true := by
  cases i with
  | cls | drwVxVyNibble =>
    cases h
    rfl
  | _ => simp [MayWrite] at hp

/-- Only Fx33 and Fx55 may write memory. -/
theorem mayWrite_mem (i : Instr) (s : State) (a : Fin 4096) (hp : MayWrite i s (.mem a)) :
    ∃ x, i = .ldBVx x ∨ i = .ldMemVx x := by
  cases i with
  | ldBVx x => exact ⟨x, .inl rfl⟩
  | ldMemVx x => exact ⟨x, .inr rfl⟩
  | _ => simp [MayWrite] at hp

/-- Only Cxkk may write the sample count. -/
theorem mayWrite_rndCount (i : Instr) (s : State) (hp : MayWrite i s .rndCount) : ∃ x kk, i = .rndVxByte x kk := by
  cases i with
  | rndVxByte x kk => exact ⟨x, kk, rfl⟩
  | _ => simp [MayWrite] at hp

/-- The family and the trailing byte of a word that decodes to an instruction of format `XK` or `XS`. -/
theorem family_and_byte_of_decode (op : Word) (i : Instr) (fam : Nat) (x : Reg) (kk : Byte) (hfam : fam < 16)
    (hi : encode i = encodeXK fam x kk) (hd : decodeWord op = some i) :
    op.toNat / 4096 = fam ∧ op.toNat % 256 = kk.toNat := by
  obtain ⟨-, rfl⟩ := encodeOfDecode op i hd
  rw [hi]
  refine ⟨fieldFam_encodeXK fam x kk hfam, ?_⟩
  rw [← fieldKK_toNat, fieldKK_encodeXK fam x kk hfam]

/-- Settles O16: by `step_frame`, a part the statement names is as before or the step ran an instruction that may write
it: one that sets DF, none for K, Fx33 or Fx55 for memory, Cxkk for the sample count. -/
theorem stepNeverDoes : Obligations.StepNeverDoes := by
  intro s t h
  refine ⟨fun hdf => ?_, ?_, fun a hchanged => ?_, fun hsampled => ?_⟩
  · rcases step_frame s t .df id h with hsame | ⟨op, i, u, -, -, hmay, hexec, rfl⟩
    · exact (toNat_bool_injective hsame).trans hdf
    · have hset := exec_sets_df i _ u hexec hmay
      exact toNat_bool_injective ((look_finish u .df id).trans (congrArg Bool.toNat hset))
  · rcases step_frame s t .k id h with hsame | ⟨op, i, u, -, -, hmay, -⟩
    · exact BitVec.eq_of_toNat_eq hsame
    · exact absurd hmay (not_mayWrite_k i _)
  · rcases step_frame s t (.mem a) id h with hsame | ⟨op, i, u, hf, hd, hmay, -⟩
    · exact absurd hsame hchanged
    · obtain ⟨x, rfl | rfl⟩ := mayWrite_mem i _ a hmay
      · obtain ⟨hfam, hbyte⟩ := family_and_byte_of_decode op _ 0xF x 0x33 (by decide) rfl hd
        exact ⟨op, hf, hfam, .inl hbyte⟩
      · obtain ⟨hfam, hbyte⟩ := family_and_byte_of_decode op _ 0xF x 0x55 (by decide) rfl hd
        exact ⟨op, hf, hfam, .inr hbyte⟩
  · rcases step_frame s t .rndCount id h with hsame | ⟨op, i, u, hf, hd, hmay, -⟩
    · exact absurd hsame hsampled
    · obtain ⟨x, kk, rfl⟩ := mayWrite_rndCount i _ hmay
      exact ⟨op, hf, (family_and_byte_of_decode op _ 0xC x kk (by decide) rfl hd).1⟩

/-! ### A step that fetches, and one that cannot -/

theorem step_of_fetches (s : State) (op : Word) (hf : s.fetches op) : step s = runWord op s := by
  obtain ⟨hak, hfetch⟩ := (fetches_iff s op).1 hf
  rw [step, cycle, hak]
  simp only [hfetch]

theorem step_of_instr (s : State) (op : Word) (i : Instr) (hf : s.fetches op) (hd : decodeWord op = some i) :
    step s = finishResult (exec i s.forgetError.addPc2) := by
  rw [step_of_fetches s op hf, runWord, hd]

theorem step_of_unknown (s : State) (op : Word) (hf : s.fetches op) (hd : decodeWord op = none) :
    step s = .next (s.forgetError.addPc2.raise (.unknownOpcode op)) := by
  rw [step_of_fetches s op hf, runWord, hd]

theorem step_of_fetch_out_of_bounds (s : State) (hak : s.ak = none) (hpc : 4096 ≤ s.pc.toNat + 1) :
    step s = .next (s.raise .fetchOutOfBounds) := by
  have hfetch : s.fetch = none := if_pos hpc
  rw [step, cycle, hak]
  simp only [hfetch]

/-- Settles O6: the state handed to the instruction is the one with the error forgotten and PC advanced. -/
theorem stepRunsTheDecodedInstruction : Obligations.StepRunsTheDecodedInstruction := by
  intro s op i hf hd
  refine ⟨(encodeOfDecode op i hd).1, s.forgetError.addPc2, rfl, rfl, look_advance s, ?_⟩
  rw [step_of_instr s op i hf hd]
  cases exec i s.forgetError.addPc2 <;> rfl

/-- Settles O7, by what every part shows after a tick (`State.look_tick`). -/
theorem tickDecrementsNonzeroTimers : Obligations.TickDecrementsNonzeroTimers := by
  intro s
  refine ⟨State.look_tick s .dt, State.look_tick s .st, fun p hdt hst => ?_⟩
  rw [State.look_tick, if_neg hdt, if_neg hst]

/-- Settles O8: the error writes neither AK nor PC, so the next fetch is out of bounds again, and reporting the same
status twice is reporting it once. -/
theorem fetchOutOfBoundsChangesNothing : Obligations.FetchOutOfBoundsChangesNothing := by
  intro s hak hpc
  refine ⟨_, step_of_fetch_out_of_bounds s hak hpc, rfl, fun p hstatus => ?_, ?_⟩
  · rw [State.look_raise, if_neg hstatus]
  · exact step_of_fetch_out_of_bounds (s.raise .fetchOutOfBounds) hak hpc

/-- Settles O9: the step ends after the advance, and neither the advance nor the error writes AK or memory, which the
next fetch reads. -/
theorem unknownOpcodeLeavesAllButPc : Obligations.UnknownOpcodeLeavesAllButPc := by
  intro s op hf hd
  have hak : s.ak = none := hf.1
  refine ⟨_, step_of_unknown s op hf hd, rfl, rfl, fun p hpc hstatus => ?_, fun op' => ?_⟩
  · rw [State.look_raise, if_neg hstatus, look_advance s p hpc hstatus]
  · exact ⟨fun ⟨_, hword⟩ => hword, fun hword => ⟨hak, hword⟩⟩

end Sys2Proof.Machine

/-! ## Proofs of family 41_flow: control transfer -/

namespace Sys2Proof.Machine

/-! ### Jumps -/

theorem zextAddr_toNat (nnn : Addr) : (zextAddr nnn).toNat = nnn.toNat :=
  BitVec.toNat_setWidth_of_le (by decide)

theorem exec_jpAddr (nnn : Addr) (s : State) : exec (.jpAddr nnn) s = .next (s.setPc (zextAddr nnn)) := rfl

theorem exec_jpV0Addr (nnn : Addr) (s : State) : exec (.jpV0Addr nnn) s = .next (s.setPc (s.v0Target nnn)) := rfl

/-- The sum of a 12-bit address and a byte fits PC, so nothing is reduced (41_flow R113). -/
theorem v0Target_toNat (s : State) (nnn : Addr) : (s.v0Target nnn).toNat = nnn.toNat + s.look (.v 0) := by
  have hbase := nnn.isLt
  have hoffset : s.look (.v 0) < 256 := (s.getV 0).isLt
  have hwide : ((s.getV 0).setWidth 16).toNat = s.look (.v 0) := BitVec.toNat_setWidth_of_le (by decide)
  rw [State.v0Target, BitVec.toNat_add, zextAddr_toNat, hwide]
  omega

/-- The word 1nnn is a jump to nnn (30_encoding R75). -/
theorem decodeWord_jpAddr (nnn : Addr) :
    decodeWord (BitVec.ofNat 16 (0x1000 + nnn.toNat)) = some (.jpAddr nnn) :=
  decodeWord_encode (.jpAddr nnn) rfl

/-- A step that fetches 1nnn: the error is forgotten, PC is nnn, whatever the advance made of it, and the timers
tick. -/
theorem step_jpAddr (nnn : Addr) (s : State) (hf : s.fetches (BitVec.ofNat 16 (0x1000 + nnn.toNat))) :
    step s = .next (s.forgetError.addPc2.setPc (zextAddr nnn)).tick := by
  rw [step_of_instr s _ _ hf (decodeWord_jpAddr nnn), exec_jpAddr, finishResult, State.finish_ok _ rfl]

/-- Settles O41: the target is loaded without a check, so that 0xFFF is found out by the next step's fetch
(`step_of_fetch_out_of_bounds`); the step of a jump to its own address is `step_jpAddr`, which leaves PC at nnn again. -/
theorem jpAddrSetsPc : Obligations.JpAddrSetsPc := by
  intro nnn s
  refine ⟨decodeWord_jpAddr nnn, ⟨_, exec_jpAddr nnn s, zextAddr_toNat nnn, fun p hpc => ?_, ?_⟩, fun hf hself => ?_⟩
  · rw [State.look_setPc, if_neg hpc]
  · rintro rfl hak
    have hbound : 4096 ≤ (zextAddr 0xFFF).toNat + 1 := by decide
    exact ⟨_, step_of_fetch_out_of_bounds (s.setPc (zextAddr 0xFFF)) hak hbound, rfl⟩
  · refine ⟨_, step_jpAddr nnn s hf, rfl, fun p hdt hst hstatus => ?_⟩
    rw [State.look_tick, if_neg hdt, if_neg hst, State.look_setPc]
    split
    next hpc =>
      subst hpc
      exact (zextAddr_toNat nnn).trans hself.symm
    next hpc => exact look_advance s p hpc hstatus

/-- Settles O42: the target is the sum itself (`v0Target_toNat`). -/
theorem jpV0AddrAddsV0 : Obligations.JpV0AddrAddsV0 := by
  intro nnn s
  refine ⟨_, exec_jpV0Addr nnn s, v0Target_toNat s nnn, fun p hpc => ?_⟩
  rw [State.look_setPc, if_neg hpc]

/-! ### Subroutines -/

/-- Settles O43, by what CALL does below depth 16 (`execCallAddr_cases`); the frame is that of every instruction. -/
theorem callAddrPushesTheReturnAddress : Obligations.CallAddrPushesTheReturnAddress := by
  intro nnn s hsp
  obtain ⟨t, hexec⟩ := exec_total (.callAddr nnn) s
  rcases execCallAddr_cases nnn s t hexec with ⟨hfull, -⟩ | ⟨-, -, hlook⟩
  · exact absurd hfull (Nat.ne_of_lt hsp)
  refine ⟨t, hexec, fun j hj => ?_, hlook .sp, (hlook .pc).trans (zextAddr_toNat nnn), fun p hpc hsp' hstack => ?_⟩
  · exact (hlook (.stack j)).trans (if_pos hj)
  · refine execCallAddr_frame nnn s t p hexec fun hmay => ?_
    rw [MayWrite, if_neg (Nat.ne_of_lt hsp)] at hmay
    rcases hmay with h | h | ⟨j, hj, h⟩
    · exact hpc h
    · exact hsp' h
    · exact hstack j hj h

/-- Settles O44, by what RET does on a nonempty stack (`execRet_cases`), which names one entry at the new SP; the frame
is that of every instruction. -/
theorem retPopsTheReturnAddress : Obligations.RetPopsTheReturnAddress := by
  intro s hsp
  obtain ⟨t, hexec⟩ := exec_total .ret s
  rcases execRet_cases s t hexec with ⟨hempty, -⟩ | ⟨-, -, top, htop, hlook⟩
  · exact absurd hempty (Nat.ne_of_gt hsp)
  refine ⟨t, hexec, ?_, fun j hj => ?_, fun p hpc hsp' => ?_⟩
  · rw [hlook .sp]
    exact htop
  · have hsame : j = top := Fin.ext (Nat.succ.inj (hj.trans htop.symm))
    rw [hsame]
    exact hlook .pc
  · refine execRet_frame s t p hexec fun hmay => ?_
    rw [MayWrite, if_neg (Nat.ne_of_gt hsp)] at hmay
    exact hmay.elim hpc hsp'

/-- After an error the timers do not tick (60_exceptions R216). -/
theorem finish_raise (e : Status) (s : State) (he : e ≠ .ok) : (s.raise e).finish = s.raise e :=
  State.finish_error (s.raise e) he

theorem exec_callAddr_full (nnn : Addr) (s : State) (hsp : s.sp.val = 16) :
    exec (.callAddr nnn) s = .next (s.raise .stackOverflow) := by
  obtain ⟨t, hexec⟩ := exec_total (.callAddr nnn) s
  rcases execCallAddr_cases nnn s t hexec with ⟨-, rfl⟩ | ⟨hlt, -⟩
  · exact hexec
  · exact absurd hsp (Nat.ne_of_lt hlt)

theorem exec_ret_empty (s : State) (hsp : s.sp.val = 0) : exec .ret s = .next (s.raise .stackUnderflow) := by
  obtain ⟨t, hexec⟩ := exec_total .ret s
  rcases execRet_cases s t hexec with ⟨-, rfl⟩ | ⟨hgt, -⟩
  · exact hexec
  · exact absurd hsp (Nat.ne_of_gt hgt)

/-- Settles O45: at their limits CALL and RET raise, which writes the status alone and suppresses the tick. -/
theorem stackErrorsWriteNothing : Obligations.StackErrorsWriteNothing := by
  refine ⟨fun nnn s hsp => ?_, fun s hsp => ?_⟩
  · refine ⟨_, exec_callAddr_full nnn s hsp, rfl, finish_raise _ s nofun, fun p hstatus => ?_⟩
    rw [State.look_raise, if_neg hstatus]
  · refine ⟨_, exec_ret_empty s hsp, rfl, finish_raise _ s nofun, fun p hstatus => ?_⟩
    rw [State.look_raise, if_neg hstatus]

/-- Settles O46, from O43 and O44: the entry RET pops is at the SP before the call, where CALL put its PC. -/
theorem callThenRetComesBack : Obligations.CallThenRetComesBack := by
  intro nnn s hsp
  obtain ⟨t, hcall, hpushed, htsp, -⟩ := callAddrPushesTheReturnAddress nnn s hsp
  refine ⟨t, hcall, fun u husp hustack => ?_⟩
  have hdepth : u.sp.val = s.sp.val + 1 := (congrArg Fin.val husp).trans htsp
  obtain ⟨w, hret, hwsp, hpopped, -⟩ := retPopsTheReturnAddress u (hdepth ▸ Nat.succ_pos _)
  refine ⟨w, hret, BitVec.eq_of_toNat_eq ?_, Fin.ext (Nat.succ.inj (hwsp.trans hdepth))⟩
  calc w.look .pc
      _ = u.look (.stack ⟨s.sp.val, hsp⟩) := hpopped _ hdepth.symm
      _ = t.look (.stack ⟨s.sp.val, hsp⟩) := by simp only [State.look, hustack]
      _ = s.look .pc := hpushed _ rfl

end Sys2Proof.Machine

/-! ## Proofs of family 42_skip: conditional skips -/

namespace Sys2Proof.Machine

/-! ### The words and the meanings of the skips -/

/-- A word of format `XY` in family 5 or 9 with a nonzero trailing nibble is no instruction (30_encoding R82). -/
theorem decodeWord_encodeXYN_eq_none (fam : Nat) (hfam : fam = 0x5 ∨ fam = 0x9) (x y : Reg) (n : Nat) (hpos : 0 < n)
    (hn : n < 16) : decodeWord (encodeXYN fam x y n) = none := by
  have hlt : fam < 16 := by omega
  have hfamily := fieldFam_encodeXYN fam x y n hlt hn
  have hnibble : fieldN (encodeXYN fam x y n) ≠ 0 := by
    rw [fieldN_encodeXYN fam x y n hlt hn]
    exact Nat.ne_of_gt hpos
  rcases hfam with rfl | rfl
  · simp only [decodeWord, hfamily, if_neg hnibble]
  · simp only [decodeWord, hfamily, if_neg hnibble]

theorem exec_seVxByte (x : Reg) (kk : Byte) (s : State) :
    exec (.seVxByte x kk) s = .next (skipIf (s.getV x == kk) s) := rfl

theorem exec_sneVxByte (x : Reg) (kk : Byte) (s : State) :
    exec (.sneVxByte x kk) s = .next (skipIf (s.getV x != kk) s) := rfl

theorem exec_seVxVy (x y : Reg) (s : State) :
    exec (.seVxVy x y) s = .next (skipIf (s.getV x == s.getV y) s) := rfl

theorem exec_sneVxVy (x y : Reg) (s : State) :
    exec (.sneVxVy x y) s = .next (skipIf (s.getV x != s.getV y) s) := rfl

theorem exec_skpVx (x : Reg) (s : State) : exec (.skpVx x) s = .next (skipIf (s.keyDown x) s) := rfl

theorem exec_sknpVx (x : Reg) (s : State) : exec (.sknpVx x) s = .next (skipIf (!s.keyDown x) s) := rfl

/-! ### What a skip does to PC, and its frame -/

theorem skipIf_frame (c : Bool) (s : State) (p : Part) (hp : p ≠ .pc) : (skipIf c s).look p = s.look p :=
  (skipIf_look c s p).trans (if_neg hp)

/-- A register and a byte agree as unsigned numbers exactly when they agree in all 8 bits (42_skip R121). -/
theorem look_v_eq_toNat_iff (s : State) (x : Reg) (b : Byte) : s.look (.v x) = b.toNat ↔ s.getV x = b :=
  BitVec.toNat_inj

theorem skipIf_beq_pc (s : State) (x : Reg) (b : Byte) :
    (skipIf (s.getV x == b) s).pc = if s.look (.v x) = b.toNat then s.pc + 2 else s.pc := by
  simp only [skipIf_pc, beq_iff_eq, look_v_eq_toNat_iff]

theorem skipIf_bne_pc (s : State) (x : Reg) (b : Byte) :
    (skipIf (s.getV x != b) s).pc = if s.look (.v x) = b.toNat then s.pc else s.pc + 2 := by
  simp only [skipIf_pc, bne_iff_ne, ne_eq, ite_not, look_v_eq_toNat_iff]

/-- Settles O47: each skip is `skipIf` on the comparison of its operands, from which PC (`skipIf_beq_pc`,
`skipIf_bne_pc`) and the frame follow; its word is the encoder's. -/
theorem registerSkipsAddTwoToPc : Obligations.RegisterSkipsAddTwoToPc := by
  intro x y kk s
  refine ⟨⟨decodeWord_encode (.seVxByte x kk) rfl, ?_⟩, ⟨decodeWord_encode (.sneVxByte x kk) rfl, ?_⟩,
    ⟨decodeWord_encode (.seVxVy x y) rfl, decodeWord_encodeXYN_eq_none 0x5 (.inl rfl) x y, ?_⟩,
    ⟨decodeWord_encode (.sneVxVy x y) rfl, decodeWord_encodeXYN_eq_none 0x9 (.inr rfl) x y, ?_⟩⟩
  · exact ⟨_, exec_seVxByte x kk s, skipIf_beq_pc s x kk, skipIf_frame _ s⟩
  · exact ⟨_, exec_sneVxByte x kk s, skipIf_bne_pc s x kk, skipIf_frame _ s⟩
  · exact ⟨_, exec_seVxVy x y s, skipIf_beq_pc s x (s.getV y), skipIf_frame _ s⟩
  · exact ⟨_, exec_sneVxVy x y s, skipIf_bne_pc s x (s.getV y), skipIf_frame _ s⟩

/-! ### The skips on a key -/

/-- The key a register names is its value mod 16 (42_skip R127). -/
theorem keyDown_eq (s : State) (x : Reg) : s.keyDown x = s.k.getLsbD (s.look (.v x) % 16) := rfl

/-- Settles O48: SKP and SKNP are `skipIf` on the key's bit and on its negation. -/
theorem keySkipsTestTheSnapshot : Obligations.KeySkipsTestTheSnapshot := by
  intro x s
  refine ⟨_, _, exec_skpVx x s, exec_sknpVx x s, fun hdown => ?_, fun hup => ?_, fun p hp => ?_⟩
  · have hkey : s.keyDown x = true := (keyDown_eq s x).trans hdown
    simp [hkey]
  · have hkey : s.keyDown x = false := (keyDown_eq s x).trans hup
    simp [hkey]
  · exact ⟨skipIf_frame _ s p hp, skipIf_frame _ s p hp⟩

end Sys2Proof.Machine

/-! ## Proofs of family 43_load_alu: loads, arithmetic and logic, random -/

namespace Sys2Proof.Machine

/-! ### One register written -/

theorem getV_setV_self (s : State) (x : Reg) (b : Byte) : (s.setV x b).getV x = b :=
  (State.getV_setV s x x b).trans (if_pos rfl)

theorem look_setV_self (s : State) (x : Reg) (b : Byte) : (s.setV x b).look (.v x) = b.toNat :=
  congrArg BitVec.toNat (getV_setV_self s x b)

theorem setV_frame (s : State) (x : Reg) (b : Byte) (p : Part) (hp : p ≠ .v x) : (s.setV x b).look p = s.look p :=
  (State.look_setV s p x b).trans (if_neg hp)

theorem exec_ldVxByte (x : Reg) (kk : Byte) (s : State) : exec (.ldVxByte x kk) s = .next (s.setV x kk) := rfl

theorem exec_addVxByte (x : Reg) (kk : Byte) (s : State) :
    exec (.addVxByte x kk) s = .next (s.setV x (s.getV x + kk)) := rfl

theorem exec_ldVxVy (x y : Reg) (s : State) : exec (.ldVxVy x y) s = .next (s.setV x (s.getV y)) := rfl

theorem exec_orVxVy (x y : Reg) (s : State) : exec (.orVxVy x y) s = .next (s.setV x (s.getV x ||| s.getV y)) := rfl

theorem exec_andVxVy (x y : Reg) (s : State) : exec (.andVxVy x y) s = .next (s.setV x (s.getV x &&& s.getV y)) := rfl

theorem exec_xorVxVy (x y : Reg) (s : State) : exec (.xorVxVy x y) s = .next (s.setV x (s.getV x ^^^ s.getV y)) := rfl

/-- Settles O24: the word is the encoder's, the meaning one register write. -/
theorem ldVxByteLoadsTheByte : Obligations.LdVxByteLoadsTheByte := by
  intro x kk s
  exact ⟨decodeWord_encode (.ldVxByte x kk) rfl, _, exec_ldVxByte x kk s, look_setV_self s x kk, setV_frame s x kk⟩

/-- Settles O25: the addition of bytes is the one modulo 256, and only register x is written. -/
theorem addVxByteWrapsWithoutFlag : Obligations.AddVxByteWrapsWithoutFlag := by
  intro x kk s
  refine ⟨_, exec_addVxByte x kk s, ?_, setV_frame s x _⟩
  exact (look_setV_self s x _).trans (BitVec.toNat_add (s.getV x) kk)

/-- Settles O26: one register write, of the value register y holds. -/
theorem ldVxVyCopiesTheRegister : Obligations.LdVxVyCopiesTheRegister := by
  intro x y s
  exact ⟨_, exec_ldVxVy x y s, look_setV_self s x (s.getV y), setV_frame s x _⟩

/-- Settles O27: each of the three writes one register, with the bitwise operation on the two old values. -/
theorem logicOperationsAreBitwise : Obligations.LogicOperationsAreBitwise := by
  intro x y s
  refine ⟨⟨_, exec_orVxVy x y s, fun b _ => ?_, setV_frame s x _⟩,
    ⟨_, exec_andVxVy x y s, fun b _ => ?_, setV_frame s x _⟩,
    ⟨_, exec_xorVxVy x y s, fun b _ => ?_, setV_frame s x _⟩⟩
  · rw [getV_setV_self, BitVec.getLsbD_or]
  · rw [getV_setV_self, BitVec.getLsbD_and]
  · rw [getV_setV_self, BitVec.getLsbD_xor]

/-! ### A result and its flag -/

/-- A result and then its flag (43_load_alu R143): register x holds the result unless it is VF, VF holds the flag
whatever x is, and every other part looks as before. -/
theorem setResultThenFlag_spec (s : State) (x : Reg) (r : Byte) (f : Bool) :
    (x ≠ 15 → (s.setResultThenFlag x r f).look (.v x) = r.toNat) ∧
    (s.setResultThenFlag x r f).look (.v 15) = f.toNat ∧
    ∀ p, p ≠ .v x → p ≠ .v 15 → (s.setResultThenFlag x r f).look p = s.look p := by
  refine ⟨fun hx => ?_, ?_, fun p hpx hpvf => ?_⟩
  · have hvf : Part.v x ≠ .v 15 := fun e => hx (Part.v.inj e)
    rw [State.look_setResultThenFlag, if_neg hvf, if_pos rfl]
  · rw [State.look_setResultThenFlag, if_pos rfl]
  · rw [State.look_setResultThenFlag, if_neg hpvf, if_neg hpx]

theorem exec_addVxVy (x y : Reg) (s : State) : exec (.addVxVy x y) s =
    .next (s.setResultThenFlag x (s.getV x + s.getV y) (carryOut (s.getV x) (s.getV y))) := rfl

theorem exec_subVxVy (x y : Reg) (s : State) : exec (.subVxVy x y) s =
    .next (s.setResultThenFlag x (s.getV x - s.getV y) (notBorrow (s.getV x) (s.getV y))) := rfl

theorem exec_subnVxVy (x y : Reg) (s : State) : exec (.subnVxVy x y) s =
    .next (s.setResultThenFlag x (s.getV y - s.getV x) (notBorrow (s.getV y) (s.getV x))) := rfl

theorem exec_shrVx (x y : Reg) (s : State) : exec (.shrVx x y) s =
    .next (s.setResultThenFlag x (s.getV x >>> 1) (shiftedOutRight (s.getV x))) := rfl

theorem exec_shlVx (x y : Reg) (s : State) : exec (.shlVx x y) s =
    .next (s.setResultThenFlag x (s.getV x <<< 1) (shiftedOutLeft (s.getV x))) := rfl

theorem carryOut_toNat (a b : Byte) : (carryOut a b).toNat = if a.toNat + b.toNat > 255 then 1 else 0 :=
  Bool.cond_decide _ 1 0

theorem notBorrow_toNat (a b : Byte) : (notBorrow a b).toNat = if b.toNat ≤ a.toNat then 1 else 0 :=
  Bool.cond_decide _ 1 0

/-- The difference of bytes, with the borrow of 256 lent before subtracting (43_load_alu R139). -/
theorem toNat_sub_byte (a b : Byte) : (a - b).toNat = (a.toNat + 256 - b.toNat) % 256 := by
  have hb := b.isLt
  rw [BitVec.toNat_sub]
  omega

theorem toNat_shiftRight_one (a : Byte) : (a >>> 1).toNat = a.toNat / 2 := by
  rw [BitVec.toNat_ushiftRight, Nat.shiftRight_one]

theorem toNat_shiftLeft_one (a : Byte) : (a <<< 1).toNat = 2 * a.toNat % 256 := by
  rw [BitVec.toNat_shiftLeft, Nat.shiftLeft_eq, Nat.mul_comm]

theorem shiftedOutRight_toNat (a : Byte) : (shiftedOutRight a).toNat = a.toNat % 2 := by
  rw [shiftedOutRight, ← BitVec.testBit_toNat, Nat.toNat_testBit, Nat.pow_zero, Nat.div_one]

/-- The highest bit is the quotient by 128, which for a byte is 0 or 1. -/
theorem shiftedOutLeft_toNat (a : Byte) : (shiftedOutLeft a).toNat = a.toNat / 128 := by
  have ha := a.isLt
  rw [shiftedOutLeft, ← BitVec.testBit_toNat, Nat.toNat_testBit]
  omega

/-- Settles O28: the sum is that of bytes, the flag the carry out of bit 7 (`carryOut_toNat`). -/
theorem addVxVySetsSumAndCarry : Obligations.AddVxVySetsSumAndCarry := by
  intro x y s
  obtain ⟨hsum, hcarry, hframe⟩ := setResultThenFlag_spec s x (s.getV x + s.getV y) (carryOut (s.getV x) (s.getV y))
  exact ⟨_, exec_addVxVy x y s, fun hx => (hsum hx).trans (BitVec.toNat_add _ _), hcarry.trans (carryOut_toNat _ _),
    hframe⟩

/-- Settles O29, by the difference of bytes (`toNat_sub_byte`) and its flag (`notBorrow_toNat`). -/
theorem subVxVySetsDifferenceAndNotBorrow : Obligations.SubVxVySetsDifferenceAndNotBorrow := by
  intro x y s
  obtain ⟨hdiff, hflag, hframe⟩ := setResultThenFlag_spec s x (s.getV x - s.getV y) (notBorrow (s.getV x) (s.getV y))
  exact ⟨_, exec_subVxVy x y s, fun hx => (hdiff hx).trans (toNat_sub_byte _ _), hflag.trans (notBorrow_toNat _ _),
    hframe⟩

/-- Settles O30, by the same facts as SUB with the operands exchanged. -/
theorem subnVxVySetsDifferenceAndNotBorrow : Obligations.SubnVxVySetsDifferenceAndNotBorrow := by
  intro x y s
  obtain ⟨hdiff, hflag, hframe⟩ := setResultThenFlag_spec s x (s.getV y - s.getV x) (notBorrow (s.getV y) (s.getV x))
  exact ⟨_, exec_subnVxVy x y s, fun hx => (hdiff hx).trans (toNat_sub_byte _ _), hflag.trans (notBorrow_toNat _ _),
    hframe⟩

/-- Settles O31: each shift by one is a halving or a doubling, its flag the bit that does not fit. -/
theorem shiftsMoveOneBitIntoVF : Obligations.ShiftsMoveOneBitIntoVF := by
  intro x y s
  constructor
  · obtain ⟨hhalf, hbit, hframe⟩ := setResultThenFlag_spec s x (s.getV x >>> 1) (shiftedOutRight (s.getV x))
    exact ⟨_, exec_shrVx x y s, fun hx => (hhalf hx).trans (toNat_shiftRight_one _),
      hbit.trans (shiftedOutRight_toNat _), hframe⟩
  · obtain ⟨hdouble, hbit, hframe⟩ := setResultThenFlag_spec s x (s.getV x <<< 1) (shiftedOutLeft (s.getV x))
    exact ⟨_, exec_shlVx x y s, fun hx => (hdouble hx).trans (toNat_shiftLeft_one _),
      hbit.trans (shiftedOutLeft_toNat _), hframe⟩

/-! ### The random input -/

theorem exec_rndVxByte (x : Reg) (kk : Byte) (s : State) :
    exec (.rndVxByte x kk) s = .next (rndWith (Config.rnd s.rndCount) x kk s).countRnd := rfl

theorem getV_rndWith (rnd : Byte) (x : Reg) (kk : Byte) (s : State) : (rndWith rnd x kk s).getV x = rnd &&& kk :=
  getV_setV_self s x (rnd &&& kk)

/-- A masked byte is at most its mask. -/
theorem toNat_and_le_mask (rnd kk : Byte) : (rnd &&& kk).toNat ≤ kk.toNat := by
  rw [BitVec.toNat_and]
  exact Nat.and_le_right

/-- Settles O32: the random input enters only as the operand of the mask, so nothing is asked of its value. -/
theorem rndVxByteMasksTheRandomInput : Obligations.RndVxByteMasksTheRandomInput := by
  intro x kk s
  refine ⟨_, exec_rndVxByte x kk s, fun b _ => ?_, ?_, rfl, fun p hpx hpcount => ?_⟩
  · rw [State.countRnd_getV, getV_rndWith, BitVec.getLsbD_and]
  · rw [State.look, State.countRnd_getV, getV_rndWith]
    exact toNat_and_le_mask _ _
  · rw [State.look_countRnd, if_neg hpcount]
    exact setV_frame s x _ p hpx

end Sys2Proof.Machine

/-! ## Proofs of family 44_index_memory: the index register and the memory instructions -/

namespace Sys2Proof.Machine

/-! ### The index register -/

theorem look_setI_self (s : State) (w : Word) : (s.setI w).look .i = w.toNat :=
  (State.look_setI s .i w).trans (if_pos rfl)

theorem setI_frame (s : State) (w : Word) (p : Part) (hp : p ≠ .i) : (s.setI w).look p = s.look p :=
  (State.look_setI s p w).trans (if_neg hp)

theorem exec_ldIAddr (nnn : Addr) (s : State) : exec (.ldIAddr nnn) s = .next (s.setI (zextAddr nnn)) := rfl

theorem exec_addIVx (x : Reg) (s : State) :
    exec (.addIVx x) s = .next (s.setI (BitVec.ofNat 16 ((s.i.toNat + (s.getV x).toNat) % 4096))) := rfl

theorem exec_ldFVx (x : Reg) (s : State) : exec (.ldFVx x) s = .next (s.setI (glyphAddr (s.lowNibble x))) := rfl

/-- An address reduced modulo 4096 fits I, so the 16 bits cut nothing off (44_index_memory R151). -/
theorem toNat_ofNat_mod_memSize (n : Nat) : (BitVec.ofNat 16 (n % 4096)).toNat = n % 4096 :=
  (BitVec.toNat_ofNat _ 16).trans (Nat.mod_eq_of_lt (Nat.lt_trans (Nat.mod_lt n (by decide)) (by decide)))

theorem glyphAddr_toNat : ∀ d : Fin 16, (glyphAddr d).toNat = 5 * d.val := by decide

/-- Settles O33: the word is the encoder's, the meaning one write of I. -/
theorem ldIAddrLoadsTheAddress : Obligations.LdIAddrLoadsTheAddress := by
  intro nnn s
  exact ⟨decodeWord_encode (.ldIAddr nnn) rfl, _, exec_ldIAddr nnn s,
    (look_setI_self s _).trans (zextAddr_toNat nnn), setI_frame s _⟩

/-- Settles O34: the sum is reduced before it is written (`toNat_ofNat_mod_memSize`), and only I is written. -/
theorem addIVxWrapsAt4096 : Obligations.AddIVxWrapsAt4096 := by
  intro x s
  exact ⟨_, exec_addIVx x s, (look_setI_self s _).trans (toNat_ofNat_mod_memSize _), setI_frame s _⟩

/-- Settles O35: the glyph of the digit Vx mod 16 stands at five times that digit (`glyphAddr_toNat`). -/
theorem ldFVxAddressesTheGlyph : Obligations.LdFVxAddressesTheGlyph := by
  intro x s
  exact ⟨_, exec_ldFVx x s, (look_setI_self s _).trans (glyphAddr_toNat (s.lowNibble x)), setI_frame s _⟩

/-! ### Stores

Both stores are one block write, so their frames are the two of a block write: the bytes outside it
(`State.memWrite_readByte_outside`) and the parts that are no byte of memory (`State.memWrite_look`). -/

theorem exec_ldBVx (x : Reg) (s : State) :
    exec (.ldBVx x) s = .next (State.memWrite s.i.toNat (decimalDigits (s.getV x)) s) := rfl

theorem exec_ldMemVx (x : Reg) (s : State) :
    exec (.ldMemVx x) s = .next (State.memWrite s.i.toNat (s.regsUpTo x) s) := rfl

@[simp] theorem decimalDigits_length (b : Byte) : (decimalDigits b).length = 3 := rfl

/-- Each digit of a byte fits a byte (44_index_memory R153). -/
theorem decimalDigits_toNat (b : Byte) :
    (decimalDigits b)[0].toNat = b.toNat / 100 ∧ (decimalDigits b)[1].toNat = b.toNat / 10 % 10 ∧
    (decimalDigits b)[2].toNat = b.toNat % 10 := by
  have hb := b.isLt
  refine ⟨?_, ?_, ?_⟩ <;> exact (BitVec.toNat_ofNat _ 8).trans (Nat.mod_eq_of_lt (by omega))

/-- `LD B,Vx` leaves digit j at the effective address (I + j) mod 4096: its three bytes do not overlap. -/
theorem readByte_storedDigits (x : Reg) (s : State) (hs : Memory.wf s.mem = true) (j : Nat) (hj : j < 3) :
    (State.memWrite s.i.toNat (decimalDigits (s.getV x)) s).readByte (s.effAddr j) = (decimalDigits (s.getV x))[j] :=
  State.memWrite_readByte_inside (decimalDigits (s.getV x)) s.i.toNat s j hs (by simp) hj

/-- Settles O36: each of the three bytes reads back (`readByte_storedDigits`) as its digit. -/
theorem ldBVxStoresTheDigits : Obligations.LdBVxStoresTheDigits := by
  intro x s hs
  obtain ⟨hhundreds, htens, hones⟩ := decimalDigits_toNat (s.getV x)
  have hstored := readByte_storedDigits x s hs
  refine ⟨_, exec_ldBVx x s, ?_, ?_, ?_, fun a ha => ?_, State.memWrite_look _ _ s⟩
  · exact (congrArg BitVec.toNat (hstored 0 (by decide))).trans hhundreds
  · exact (congrArg BitVec.toNat (hstored 1 (by decide))).trans htens
  · exact (congrArg BitVec.toNat (hstored 2 (by decide))).trans hones
  · exact congrArg BitVec.toNat (State.memWrite_readByte_outside _ _ s a.val ha)

/-- Settles O37: each register stored reads back at its effective address (`readByte_storedRegs`). -/
theorem ldMemVxStoresTheRegisters : Obligations.LdMemVxStoresTheRegisters := by
  intro x s hs
  refine ⟨_, exec_ldMemVx x s, fun j hj => ?_, fun a ha => ?_, State.memWrite_look _ _ s⟩
  · exact congrArg BitVec.toNat (readByte_storedRegs x j s hs hj)
  · refine congrArg BitVec.toNat (State.memWrite_readByte_outside _ _ s a.val fun j hj => ?_)
    rw [State.regsUpTo_length] at hj
    have hle : j ≤ x.val := Nat.le_of_lt_succ hj
    exact ha ⟨j, Nat.lt_of_le_of_lt hle x.isLt⟩ hle

/-! ### Loads -/

theorem exec_ldVxMem (x : Reg) (s : State) :
    exec (.ldVxMem x) s = .next (State.loadRegs 0 (s.memRead s.i.toNat (x.val + 1)) s) := rfl

/-- `LD Vx,[I]` puts into register j, up to x, the byte at the effective address (I + j) mod 4096 (44_index_memory
R156). -/
theorem getV_loadedRegs (x j : Reg) (s : State) (hj : j ≤ x) :
    (State.loadRegs 0 (s.memRead s.i.toNat (x.val + 1)) s).getV j = s.readByte (s.effAddr j.val) := by
  have hread : j.val < (s.memRead s.i.toNat (x.val + 1)).length := by
    rw [State.memRead_length]
    exact Nat.lt_succ_of_le hj
  have hlook := (State.loadRegs_look _ 0 s (.v j)).trans (dif_pos ⟨Nat.zero_le _, hread⟩)
  exact (BitVec.eq_of_toNat_eq hlook).trans (State.memRead_getElem _ s _ j.val hread)

/-- Settles O38: the registers up to x by `getV_loadedRegs`, the rest by the frame of every instruction. -/
theorem ldVxMemLoadsTheRegisters : Obligations.LdVxMemLoadsTheRegisters := by
  intro x s
  refine ⟨_, exec_ldVxMem x s, fun j hj => ?_, fun p hp => ?_⟩
  · exact congrArg BitVec.toNat (getV_loadedRegs x j s hj)
  · refine exec_frame _ s _ p (exec_ldVxMem x s) ?_
    rintro ⟨j, hj, e⟩
    exact hp j hj e

/-- Settles O39: the store leaves I alone, so the load reads register j from the address it was stored at. -/
theorem storeThenLoadRestoresTheRegisters : Obligations.StoreThenLoadRestoresTheRegisters := by
  intro x s hs
  refine ⟨_, exec_ldMemVx x s, fun u hmem hi => ⟨_, exec_ldVxMem x u, fun j hj => ?_⟩⟩
  have haddr : u.effAddr j.val = s.effAddr j.val := by
    rw [State.effAddr, hi, State.memWrite_i, State.effAddr]
  rw [getV_loadedRegs x j u hj, haddr, State.readByte, hmem]
  exact readByte_storedRegs x j s hs hj

end Sys2Proof.Machine

/-! ## Proofs of family 45_display: the screen and the sprites -/

namespace Sys2Proof.Machine

/-! ### Clearing the screen -/

theorem exec_cls (s : State) : exec .cls s = .next (s.display blankScreen) := rfl

/-- Settles O49: the screen shown is blank (`pixelOf_blankScreen`), and showing a screen writes the pixels and DF
alone. -/
theorem clsClearsTheScreen : Obligations.ClsClearsTheScreen := by
  intro s
  refine ⟨_, exec_cls s, fun xx yy => ?_, rfl, fun p => State.look_display_frame s p blankScreen⟩
  exact congrArg Bool.toNat (pixelOf_blankScreen xx yy)

/-! ### Drawing a sprite once -/

/-- The state `DRW Vx,Vy,nibble` leaves (45_display R167), as `exec_drwVxVyNibble` says. -/
def afterDrw (x y : Reg) (n : Nat) (s : State) : State :=
  let drawn := drawSprite s (s.look (.v x)) (s.look (.v y)) n
  (s.display drawn.1).setFlag drawn.2

section
variable (x y : Reg) (n : Nat) (s : State)

theorem exec_drwVxVyNibble : exec (.drwVxVyNibble x y n) s = .next (afterDrw x y n s) := rfl

theorem afterDrw_frame (p : Part) (hpixel : ∀ xx yy, p ≠ .pixel xx yy) (hvf : p ≠ .v 15) (hdf : p ≠ .df) :
    (afterDrw x y n s).look p = s.look p := by
  rw [afterDrw, State.look_setFlag, if_neg hvf]
  exact State.look_display_frame s p _ hpixel hdf

theorem look_afterDrw_vf : (afterDrw x y n s).look (.v 15) =
    (drawSprite s (s.look (.v x)) (s.look (.v y)) n).2.toNat :=
  (State.look_setFlag _ _ _).trans (if_pos rfl)

theorem pixelOf_afterDrw_miss (xx : Fin 64) (yy : Fin 32)
    (hmiss : ¬ s.spriteHits (s.look (.v x)) (s.look (.v y)) n xx yy) :
    pixelOf (afterDrw x y n s).fb xx yy = pixelOf s.fb xx yy :=
  drawSprite_miss s _ _ n xx yy hmiss

variable (hn : n < 16)
include hn

/-- Fewer than 16 rows do not overlap on the 32 rows of the screen, so no pixel is inverted twice. -/
theorem pixelOf_afterDrw_hit (xx : Fin 64) (yy : Fin 32)
    (hit : s.spriteHits (s.look (.v x)) (s.look (.v y)) n xx yy) :
    pixelOf (afterDrw x y n s).fb xx yy = !pixelOf s.fb xx yy :=
  (drawSprite_spec s _ _ n (by omega)).1 xx yy hit

theorem look_afterDrw_vf_eq_one_iff : (afterDrw x y n s).look (.v 15) = 1 ↔
    ∃ xx yy, s.spriteHits (s.look (.v x)) (s.look (.v y)) n xx yy ∧ pixelOf s.fb xx yy = true := by
  rw [look_afterDrw_vf, Bool.toNat_eq_one]
  exact (drawSprite_spec s _ _ n (by omega)).2.2

/-- A lit pixel is turned off exactly if the sprite hits it. -/
theorem afterDrw_turns_off_iff (xx : Fin 64) (yy : Fin 32) :
    (pixelOf s.fb xx yy = true ∧ pixelOf (afterDrw x y n s).fb xx yy = false) ↔
      s.spriteHits (s.look (.v x)) (s.look (.v y)) n xx yy ∧ pixelOf s.fb xx yy = true := by
  by_cases hit : s.spriteHits (s.look (.v x)) (s.look (.v y)) n xx yy
  · simp [pixelOf_afterDrw_hit x y n s hn xx yy hit, hit]
  · simp [pixelOf_afterDrw_miss x y n s xx yy hit, hit]

end

theorem toNat_not_bool (b : Bool) : (!b).toNat = 1 - b.toNat := by
  cases b <;> rfl

theorem look_pixel_eq_one_iff (s : State) (xx : Fin 64) (yy : Fin 32) :
    s.look (.pixel xx yy) = 1 ↔ pixelOf s.fb xx yy = true := Bool.toNat_eq_one

theorem look_pixel_eq_zero_iff (s : State) (xx : Fin 64) (yy : Fin 32) :
    s.look (.pixel xx yy) = 0 ↔ pixelOf s.fb xx yy = false := Bool.toNat_eq_zero

/-- Settles O50: the pixels by `pixelOf_afterDrw_hit` and `pixelOf_afterDrw_miss`, and VF because the lit pixels the
sprite hits are exactly those turned off (`afterDrw_turns_off_iff`). -/
theorem drwInvertsTheSpritePixels : Obligations.DrwInvertsTheSpritePixels := by
  intro x y n s hn
  refine ⟨_, exec_drwVxVyNibble x y n s, fun xx yy hit => ?_, fun xx yy hmiss => ?_, ?_, ?_, rfl,
    afterDrw_frame x y n s⟩
  · exact (congrArg Bool.toNat (pixelOf_afterDrw_hit x y n s hn xx yy hit)).trans (toNat_not_bool _)
  · exact congrArg Bool.toNat (pixelOf_afterDrw_miss x y n s xx yy hmiss)
  · rw [look_afterDrw_vf]
    exact Bool.toNat_le _
  · simp only [look_pixel_eq_one_iff, look_pixel_eq_zero_iff, afterDrw_turns_off_iff x y n s hn]
    exact look_afterDrw_vf_eq_one_iff x y n s hn

/-! ### Drawing it again -/

/-- With coordinate registers other than VF, a second draw hits the pixels the first one hit: memory, I and the
coordinates are as before it. -/
theorem spriteHits_afterDrw (x y : Reg) (n : Nat) (s : State) (hx : x ≠ 15) (hy : y ≠ 15) (xx : Fin 64) (yy : Fin 32) :
    (afterDrw x y n s).spriteHits ((afterDrw x y n s).look (.v x)) ((afterDrw x y n s).look (.v y)) n xx yy ↔
      s.spriteHits (s.look (.v x)) (s.look (.v y)) n xx yy := by
  have hcoord : ∀ r : Reg, r ≠ 15 → (afterDrw x y n s).look (.v r) = s.look (.v r) := fun r hr =>
    afterDrw_frame x y n s (.v r) (by simp) (fun e => hr (Part.v.inj e)) (by simp)
  rw [hcoord x hx, hcoord y hy]
  rfl

/-- Settles O51: both draws hit the same pixels (`spriteHits_afterDrw`), so each is inverted twice or left alone
twice, and a clear one the sprite hits is lit when the second draw comes. -/
theorem drawingTwiceRestoresTheScreen : Obligations.DrawingTwiceRestoresTheScreen := by
  intro x y n s hx hy hn
  have hsame := spriteHits_afterDrw x y n s hx hy
  refine ⟨_, _, exec_drwVxVyNibble x y n s, exec_drwVxVyNibble x y n _, fun xx yy => congrArg Bool.toNat ?_, ?_⟩
  · by_cases hit : s.spriteHits (s.look (.v x)) (s.look (.v y)) n xx yy
    · rw [pixelOf_afterDrw_hit x y n _ hn xx yy ((hsame xx yy).2 hit), pixelOf_afterDrw_hit x y n s hn xx yy hit,
        Bool.not_not]
    · rw [pixelOf_afterDrw_miss x y n _ xx yy (mt (hsame xx yy).1 hit), pixelOf_afterDrw_miss x y n s xx yy hit]
  · rintro ⟨xx, yy, hit, hclear⟩
    have hlit : pixelOf (afterDrw x y n s).fb xx yy = true := by
      rw [pixelOf_afterDrw_hit x y n s hn xx yy hit, (look_pixel_eq_zero_iff s xx yy).1 hclear, Bool.not_false]
    exact (look_afterDrw_vf_eq_one_iff x y n _ hn).2 ⟨xx, yy, (hsame xx yy).2 hit, hlit⟩

end Sys2Proof.Machine

/-! ## Proofs of family 46_timer_key: the timers and the key wait -/

namespace Sys2Proof.Machine

/-! ### The timer instructions and the start of a wait -/

theorem exec_ldVxDT (x : Reg) (s : State) : exec (.ldVxDT x) s = .next (s.setV x s.dt) := rfl

theorem exec_ldDTVx (x : Reg) (s : State) : exec (.ldDTVx x) s = .next (s.setDT (s.getV x)) := rfl

theorem exec_ldSTVx (x : Reg) (s : State) : exec (.ldSTVx x) s = .next (s.setST (s.getV x)) := rfl

theorem exec_ldVxK (x : Reg) (s : State) : exec (.ldVxK x) s = .next (s.setAK (some x)).latchKeys := rfl

/-- Settles O52: each of the three is one write of the value it reads, and its frame is that of every instruction. -/
theorem timerInstructionsMoveTheTimers : Obligations.TimerInstructionsMoveTheTimers := by
  intro x s
  refine ⟨⟨_, exec_ldVxDT x s, look_setV_self s x s.dt, fun p => ?_⟩, ⟨_, exec_ldDTVx x s, rfl, fun p => ?_⟩,
    ⟨_, exec_ldSTVx x s, rfl, fun p => ?_⟩⟩
  · exact exec_frame _ s _ p (exec_ldVxDT x s)
  · exact exec_frame _ s _ p (exec_ldDTVx x s)
  · exact exec_frame _ s _ p (exec_ldSTVx x s)

/-- Settles O54: the meaning writes AK and KL, and its frame is that of every instruction. -/
theorem ldVxKBeginsTheWait : Obligations.LdVxKBeginsTheWait := by
  intro x s
  refine ⟨_, exec_ldVxK x s, rfl, rfl, fun p hak hkl => ?_⟩
  exact exec_frame _ s _ p (exec_ldVxK x s) (not_or.2 ⟨hak, hkl⟩)

/-! ### The newly pressed keys -/

theorem getLsbD_newKeys (s : State) (key : Key) :
    s.newKeys.getLsbD key.val = (s.k.getLsbD key.val && !s.kl.getLsbD key.val) := by
  rw [State.newKeys, BitVec.getLsbD_and, BitVec.getLsbD_not, decide_eq_true key.isLt, Bool.true_and]

/-- A key is not newly pressed exactly if it is in the latch when it is pressed. -/
theorem getLsbD_newKeys_eq_false_iff (s : State) (key : Key) : s.newKeys.getLsbD key.val = false ↔
    (s.k.getLsbD key.val = true → s.kl.getLsbD key.val = true) := by
  rw [getLsbD_newKeys, Bool.and_eq_false_imp, Bool.not_eq_false']

/-- The lowest key of a set is the one picked (46_timer_key R179). -/
theorem pickKey_eq_some (new : Keys) (key : Key) (hkey : new.getLsbD key.val = true)
    (hlowest : ∀ j : Key, j < key → new.getLsbD j.val = false) : pickKey new = some key := by
  rcases pickKey_spec new with ⟨picked, hpick, hpicked, hbelow⟩ | ⟨-, rfl⟩
  · rcases lt_trichotomy picked key with hlt | rfl | hlt
    · exact absurd hpicked (Bool.eq_false_iff.1 (hlowest picked hlt))
    · exact hpick
    · exact absurd hkey (Bool.eq_false_iff.1 (hbelow key hlt))
  · exact absurd hkey (Bool.eq_false_iff.1 BitVec.getLsbD_zero)

/-- With every pressed key in the latch no key is picked. -/
theorem pickKey_newKeys_eq_none (s : State)
    (hheld : ∀ key : Key, s.k.getLsbD key.val = true → s.kl.getLsbD key.val = true) : pickKey s.newKeys = none := by
  rcases pickKey_spec s.newKeys with ⟨key, -, hnew, -⟩ | ⟨hnone, -⟩
  · exact absurd hnew (Bool.eq_false_iff.1 ((getLsbD_newKeys_eq_false_iff s key).2 (hheld key)))
  · exact hnone

/-- A key pressed and not in the latch is picked when every lower pressed key is in the latch. -/
theorem pickKey_newKeys_eq_some (s : State) (key : Key) (hdown : s.k.getLsbD key.val = true)
    (hnew : s.kl.getLsbD key.val = false)
    (hheld : ∀ j : Key, j < key → s.k.getLsbD j.val = true → s.kl.getLsbD j.val = true) :
    pickKey s.newKeys = some key := by
  refine pickKey_eq_some _ key ?_ fun j hj => (getLsbD_newKeys_eq_false_iff s j).2 (hheld j hj)
  rw [getLsbD_newKeys, hdown, hnew]
  rfl

/-! ### The waiting step -/

theorem step_of_wait (s : State) (r : Reg) (hak : s.ak = some r) : step s = .next (waitCycle r s) := by
  rw [step, cycle, hak]

section
variable (s : State) (r : Reg)

/-- With no newly pressed key a waiting step latches the keypad and ticks (46_timer_key R180). -/
theorem waitCycle_of_no_new_key (hpick : pickKey s.newKeys = none) : waitCycle r s = s.forgetError.latchKeys.tick := by
  have hpick' : pickKey s.forgetError.newKeys = none := hpick
  rw [waitCycle, State.waitingStep, hpick']

/-- With a newly pressed key it also writes the key to the target register and ends the wait. -/
theorem waitCycle_of_new_key (key : Key) (hpick : pickKey s.newKeys = some key) : waitCycle r s =
    ((s.forgetError.setV r (BitVec.ofNat 8 key.val)).setAK none).latchKeys.tick := by
  have hpick' : pickKey s.forgetError.newKeys = some key := hpick
  rw [waitCycle, State.waitingStep, hpick']

theorem waitCycle_cases : waitCycle r s = s.forgetError.latchKeys.tick ∨
    ∃ key : Key, waitCycle r s = ((s.forgetError.setV r (BitVec.ofNat 8 key.val)).setAK none).latchKeys.tick := by
  cases hpick : pickKey s.newKeys with
  | none => exact .inl (waitCycle_of_no_new_key s r hpick)
  | some key => exact .inr ⟨key, waitCycle_of_new_key s r key hpick⟩

theorem waitCycle_status : (waitCycle r s).status = .ok := by
  rcases waitCycle_cases s r with h | ⟨key, h⟩ <;> rw [h] <;> rfl

theorem waitCycle_kl : (waitCycle r s).kl = s.k := by
  rcases waitCycle_cases s r with h | ⟨key, h⟩ <;> rw [h] <;> rfl

theorem waitCycle_look_dt : (waitCycle r s).look .dt = s.look .dt - 1 := by
  rcases waitCycle_cases s r with h | ⟨key, h⟩ <;> rw [h] <;> exact State.look_tick _ .dt

theorem waitCycle_look_st : (waitCycle r s).look .st = s.look .st - 1 := by
  rcases waitCycle_cases s r with h | ⟨key, h⟩ <;> rw [h] <;> exact State.look_tick _ .st

theorem waitCycle_frame (p : Part) (hv : p ≠ .v r) (hak : p ≠ .ak) (hkl : p ≠ .kl) (hdt : p ≠ .dt) (hst : p ≠ .st)
    (hstatus : p ≠ .status) : (waitCycle r s).look p = s.look p := by
  rcases waitCycle_cases s r with h | ⟨key, h⟩
  · rw [h, State.look_tick, if_neg hdt, if_neg hst, State.look_latchKeys, if_neg hkl, State.look_forgetError,
      if_neg hstatus]
  · rw [h, State.look_tick, if_neg hdt, if_neg hst, State.look_latchKeys, if_neg hkl, State.look_setAK, if_neg hak,
      setV_frame _ r _ p hv, State.look_forgetError, if_neg hstatus]

end

/-- The number of a key fits a register. -/
theorem toNat_ofNat_key (key : Key) : (BitVec.ofNat 8 key.val).toNat = key.val :=
  (BitVec.toNat_ofNat _ 8).trans (Nat.mod_eq_of_lt (Nat.lt_trans key.isLt (by decide)))

/-- Settles O10: the step is `waitCycle`, which latches, ticks and leaves the rest alone whatever it picks; what happens
to the wait and its register is settled by the key picked. -/
theorem waitingStepPollsTheKeys : Obligations.WaitingStepPollsTheKeys := by
  intro s r hak
  refine ⟨_, step_of_wait s r hak, waitCycle_status s r, waitCycle_kl s r, waitCycle_look_dt s r,
    waitCycle_look_st s r, fun hheld => ?_, fun key hdown hnew hheld => ?_, waitCycle_frame s r⟩
  · rw [waitCycle_of_no_new_key s r (pickKey_newKeys_eq_none s hheld)]
    exact ⟨hak, rfl⟩
  · rw [waitCycle_of_new_key s r key (pickKey_newKeys_eq_some s key hdown hnew hheld)]
    exact ⟨rfl, (look_setV_self s.forgetError r _).trans (toNat_ofNat_key key)⟩

/-! ### Held keys -/

theorem run_succ_of_step (M : Host.Core) (k : Nat) (s t : M.State) (h : M.step s = .next t) :
    M.run (k + 1) s = M.run k t := by
  rw [Host.Core.run, h]

/-- A wait whose latch holds the present snapshot goes on in the next step. -/
theorem step_of_held_keys (x : Reg) (s : State) (hak : s.ak = some x) (hlatch : s.kl = s.k) :
    step s = .next s.forgetError.latchKeys.tick := by
  have hpick : pickKey s.newKeys = none := pickKey_newKeys_eq_none s fun _ hdown => hlatch ▸ hdown
  rw [step_of_wait s x hak, waitCycle_of_no_new_key s x hpick]

/-- Such a wait goes on for any number of steps: each step leaves one with the same target, PC and registers. -/
theorem run_of_held_keys (x : Reg) (k : Nat) : ∀ s : State, s.ak = some x → s.kl = s.k →
    ∃ u : State, core.run k s = .next u ∧ u.ak = some x ∧ u.pc = s.pc ∧ ∀ r, u.getV r = s.getV r := by
  induction k with
  | zero => exact fun s hak _ => ⟨s, rfl, hak, rfl, fun _ => rfl⟩
  | succ k ih =>
    intro s hak hlatch
    obtain ⟨u, hrun, hwaits, hpc, hv⟩ := ih s.forgetError.latchKeys.tick hak rfl
    exact ⟨u, (run_succ_of_step core k s _ (step_of_held_keys x s hak hlatch)).trans hrun, hwaits, hpc, hv⟩

/-- Settles O55: the instruction leaves a wait whose latch is the present snapshot, and `run_of_held_keys` applies. -/
theorem heldKeysNeverEndTheWait : Obligations.HeldKeysNeverEndTheWait := by
  intro x s
  exact ⟨_, exec_ldVxK x s, fun k => run_of_held_keys x k (s.setAK (some x)).latchKeys rfl rfl⟩

end Sys2Proof.Machine

/-! ## Proofs of family 47_host_operations: what the host may do between two steps -/

namespace Sys2Proof.Machine

/-! ### Each operation's transition -/

theorem hostOp_reset (s : State) : hostOp .reset s = (hostReset s, .done) := rfl

theorem hostOp_loadProgram_of_fits (bytes : List Byte) (s : State) (h : bytes.length ≤ 3584) :
    hostOp (.loadProgram bytes) s = (State.memWrite 0x200 bytes s, .loadStatus .ok) := by
  rw [hostOp, loadProgram, if_neg (Nat.not_lt.2 h)]

theorem hostOp_loadProgram_of_too_large (bytes : List Byte) (s : State) (h : 3584 < bytes.length) :
    hostOp (.loadProgram bytes) s = (s, .loadStatus .programTooLarge) := by
  rw [hostOp, loadProgram, if_pos h]

theorem hostOp_setKeypad (keys : Keys) (s : State) : hostOp (.setKeypad keys) s = (s.setK keys, .done) := rfl

theorem hostOp_clearDrawFlag (s : State) : hostOp .clearDrawFlag s = (s.clearDF, .done) := rfl

theorem hostOp_readSoundTimer (s : State) : hostOp .readSoundTimer s = (s, .sound s.st s.soundActive) := rfl

/-! ### The invariant -/

theorem Inv.hostReset (s : State) : Inv (hostReset s) :=
  resetMeetsTheInvariant.congr rfl rfl rfl rfl

/-- A block write keeps memory canonical and writes nothing else the invariant speaks of. -/
theorem Inv.memWrite {s : State} (hs : Inv s) (addr : Nat) (bytes : List Byte) :
    Inv (State.memWrite addr bytes s) where
  memCanonical := State.memWrite_wf bytes addr s hs.memCanonical
  indexInRange := (State.memWrite_i bytes addr s).symm ▸ hs.indexInRange
  pcInRange := (State.memWrite_pc bytes addr s).symm ▸ hs.pcInRange
  stackInRange := (State.memWrite_stack bytes addr s).symm ▸ hs.stackInRange

/-- Settles O19: reset forgets the state it starts from, a load is a block write or nothing, and no other operation
writes memory, I, PC or the stack. -/
theorem hostOperationsKeepTheInvariant : Obligations.HostOperationsKeepTheInvariant := by
  intro s op hs
  cases op with
  | reset => exact Inv.hostReset s
  | loadProgram bytes =>
    rcases Nat.lt_or_ge 3584 bytes.length with hlarge | hfits
    · rwa [hostOp_loadProgram_of_too_large bytes s hlarge]
    · rw [hostOp_loadProgram_of_fits bytes s hfits]
      exact hs.memWrite 0x200 bytes
  | setKeypad | clearDrawFlag => exact hs.congr rfl rfl rfl rfl
  | readFramebuffer | readDrawFlag | readSoundTimer => exact hs

/-! ### Loading a program -/

/-- An image that fits ends at 0xFFF at the latest, so no address of it wraps (47_host_operations R191). -/
theorem image_address_mod (bytes : List Byte) (hfits : bytes.length ≤ 3584) (j : Nat) (hj : j < bytes.length) :
    (0x200 + j) % 4096 = 0x200 + j :=
  Nat.mod_eq_of_lt (by omega)

/-- Settles O22: the load is a block write at addresses that do not wrap (`image_address_mod`), so its bytes read back
and those below and above the image are outside the block. -/
theorem loadProgramCopiesTheImage : Obligations.LoadProgramCopiesTheImage := by
  intro bytes s hs
  refine ⟨hostOp_loadProgram_of_too_large bytes s, fun hfits => ?_⟩
  refine ⟨_, hostOp_loadProgram_of_fits bytes s hfits, fun j hj => ?_, fun a ha => ?_,
    State.memWrite_look bytes 0x200 s⟩
  · rw [← State.memWrite_readByte_inside bytes 0x200 s j hs (by omega) hj, image_address_mod bytes hfits j hj]
  · refine congrArg BitVec.toNat (State.memWrite_readByte_outside bytes 0x200 s a.val fun j hj => ?_)
    rw [image_address_mod bytes hfits j hj]
    omega

/-! ### Reset -/

theorem hostReset_look (s : State) (p : Part) (hp : p ≠ .rndCount) : (hostReset s).look p = State.reset.look p := by
  cases p with
  | rndCount => exact absurd rfl hp
  | _ => rfl

/-- Reset keeps nothing but the sample count, which it leaves as it is. -/
theorem hostReset_hostReset (s : State) : hostReset (hostReset s) = hostReset s := rfl

/-- Settles O21: every part but the sample count is the reset state's (`hostReset_look`), and a second reset finds what
the first one left. -/
theorem hostResetForgetsTheState : Obligations.HostResetForgetsTheState := by
  intro s
  refine ⟨rfl, rfl, hostReset_look s, ?_⟩
  rw [hostOp_reset, hostOp_reset, hostReset_hostReset]

/-! ### The accessors -/

theorem soundActive_iff (s : State) : s.soundActive = true ↔ 0 < s.look .st := decide_eq_true_iff

/-- Settles O23: the two writes by the frame of the operation they are, the reads by what they answer. -/
theorem hostAccessorsReadAndWriteOnlyTheirs : Obligations.HostAccessorsReadAndWriteOnlyTheirs := by
  intro s keys
  rw [hostOp_setKeypad, hostOp_clearDrawFlag]
  refine ⟨⟨State.setK_k s keys, fun p hp => ?_⟩, ⟨State.clearDF_df s, fun p hp => ?_⟩, rfl, rfl, s.soundActive,
    hostOp_readSoundTimer s, soundActive_iff s⟩
  · rw [State.look_setK, if_neg hp]
  · rw [State.look_clearDF, if_neg hp]

end Sys2Proof.Machine

/-! ## Proofs of the families 60_exceptions and 70_reset_and_hazards: errors, and a timer written and ticked -/

namespace Sys2Proof.Machine

/-! ### The errors of an instruction -/

/-- Only CALL at depth 16 and RET at depth 0 may write the status (60_exceptions R212). -/
theorem mayWrite_status (i : Instr) (s : State) (hp : MayWrite i s .status) :
    (∃ nnn, i = .callAddr nnn ∧ s.sp.val = 16) ∨ (i = .ret ∧ s.sp.val = 0) := by
  cases i with
  | callAddr nnn =>
    by_cases hsp : s.sp.val = 16
    · exact .inl ⟨nnn, rfl, hsp⟩
    · simp [MayWrite, hsp] at hp
  | ret =>
    by_cases hsp : s.sp.val = 0
    · exact .inr ⟨rfl, hsp⟩
    · simp [MayWrite, hsp] at hp
  | _ => simp [MayWrite] at hp

/-- An instruction that ends in an error is a CALL or a RET at its limit, which raises its error and does nothing
else: by the frame of every instruction no other one writes the status. -/
theorem exec_error_cases (i : Instr) (s t : State) (h : exec i s = .next t) (hok : s.status = .ok)
    (herr : t.status ≠ .ok) :
    (∃ nnn, i = .callAddr nnn ∧ s.sp.val = 16 ∧ t = s.raise .stackOverflow) ∨
    (i = .ret ∧ s.sp.val = 0 ∧ t = s.raise .stackUnderflow) := by
  have hmay : MayWrite i s .status := by
    by_contra hnot
    exact herr ((Status.number_injective (exec_frame i s t .status h hnot)).trans hok)
  rcases mayWrite_status i s hmay with ⟨nnn, rfl, hsp⟩ | ⟨rfl, hsp⟩
  · exact .inl ⟨nnn, rfl, hsp, Host.Outcome.next.inj (h.symm.trans (exec_callAddr_full nnn s hsp))⟩
  · exact .inr ⟨rfl, hsp, Host.Outcome.next.inj (h.symm.trans (exec_ret_empty s hsp))⟩

/-! ### The errors of a step -/

@[simp] theorem finish_status (s : State) : s.finish.status = s.status := by
  unfold State.finish
  split <;> rfl

/-- An error raised after the advance leaves every part but PC and the status as it was (60_exceptions R214). -/
theorem look_advance_raise (s : State) (e : Status) (p : Part) (hpc : p ≠ .pc) (hstatus : p ≠ .status) :
    (s.forgetError.addPc2.raise e).look p = s.look p := by
  rw [State.look_raise, if_neg hstatus, look_advance s p hpc hstatus]

/-- The family of the word of a CALL (30_encoding R75). -/
theorem family_of_decode_callAddr (op : Word) (nnn : Addr) (hd : decodeWord op = some (.callAddr nnn)) :
    op.toNat / 4096 = 0x2 := by
  obtain ⟨-, rfl⟩ := encodeOfDecode op _ hd
  exact fieldFam_encodeA 0x2 nnn (by decide)

/-- The word of RET (30_encoding R75). -/
theorem toNat_of_decode_ret (op : Word) (hd : decodeWord op = some .ret) : op.toNat = 0x00EE := by
  obtain ⟨-, rfl⟩ := encodeOfDecode op _ hd
  rfl

/-- Settles O12: of the four things a step can do (`step_cases`) the poll reports no error, the failed fetch and the
unrecognized word raise theirs, and an instruction that ends in one is a CALL or a RET at its limit
(`exec_error_cases`). -/
theorem failedStepChangesOnlyPc : Obligations.FailedStepChangesOnlyPc := by
  intro s t h herr
  rcases step_cases s with ⟨r, -, hwait⟩ | ⟨hak, hpc, hfail⟩ | ⟨op, hf, hd, hunknown⟩ | ⟨op, i, hf, hd, hrun⟩
  · obtain rfl := Host.Outcome.next.inj (hwait.symm.trans h)
    exact absurd (waitCycle_status s r) herr
  · obtain rfl := Host.Outcome.next.inj (hfail.symm.trans h)
    refine ⟨hak, fun p _ hstatus => ?_, .inl ⟨rfl, hpc, rfl⟩⟩
    rw [State.look_raise, if_neg hstatus]
  · obtain rfl := Host.Outcome.next.inj (hunknown.symm.trans h)
    exact ⟨hf.1, look_advance_raise s _, .inr ⟨rfl, op, hf, .inl ⟨rfl, hd⟩⟩⟩
  · obtain ⟨u, hexec, rfl⟩ := finishResult_eq_next _ t (hrun.symm.trans h)
    rw [finish_status] at herr
    rw [State.finish_error u herr]
    rcases exec_error_cases i _ u hexec rfl herr with ⟨nnn, rfl, hsp, rfl⟩ | ⟨rfl, hsp, rfl⟩
    · exact ⟨hf.1, look_advance_raise s _,
        .inr ⟨rfl, op, hf, .inr (.inl ⟨rfl, family_of_decode_callAddr op nnn hd, hsp⟩)⟩⟩
    · exact ⟨hf.1, look_advance_raise s _,
        .inr ⟨rfl, op, hf, .inr (.inr ⟨rfl, toNat_of_decode_ret op hd, hsp⟩)⟩⟩

/-- Settles O13: whichever of the four things a step does (`step_cases`), the recorded status has no part in what
decides it (AK, PC and memory), and the step begins by overwriting it. -/
theorem noErrorIsSticky : Obligations.NoErrorIsSticky := by
  intro s e
  rcases step_cases s with ⟨r, hak, hwait⟩ | ⟨hak, hpc, hfail⟩ | ⟨op, hf, hd, hunknown⟩ | ⟨op, i, hf, hd, hrun⟩
  · exact (step_of_wait (s.setStatus e) r hak).trans hwait.symm
  · exact (step_of_fetch_out_of_bounds (s.setStatus e) hak hpc).trans hfail.symm
  · exact (step_of_unknown (s.setStatus e) op hf hd).trans hunknown.symm
  · exact (step_of_instr (s.setStatus e) op i hf hd).trans hrun.symm

/-! ### A timer written and ticked in one step -/

/-- The step of an instruction that raises no error ends with the tick (40_step_cycle R90). -/
theorem step_of_exec_ok (s t : State) (op : Word) (i : Instr) (hf : s.fetches op) (hd : decodeWord op = some i)
    (hexec : exec i s.forgetError.addPc2 = .next t) (hok : t.status = .ok) : step s = .next t.tick := by
  rw [step_of_instr s op i hf hd, hexec, finishResult, State.finish_ok t hok]

/-- A word of family F decodes to the instruction its register and its trailing byte encode. -/
theorem decodeWord_of_famF (op : Word) (i : Instr) (x : Reg) (kk : Byte) (hwf : WellFormed i = true)
    (hi : encode i = encodeXK 0xF x kk) (hop : op.toNat = 0xF000 + kk.toNat + 0x100 * x.val) :
    decodeWord op = some i := by
  have hword : op = encode i := by
    apply BitVec.eq_of_toNat_eq
    rw [hi, encodeXK_toNat 0xF x kk (by decide), hop]
    omega
  rw [hword, decodeWord_encode i hwf]

/-- Settles O53: the instruction writes Vx to the timer and raises no error, so the tick of the same step
(`step_of_exec_ok`) finds Vx there. -/
theorem timerWrittenIsTickedInTheSameStep : Obligations.TimerWrittenIsTickedInTheSameStep := by
  intro x s op hf
  refine ⟨fun hop => ?_, fun hop => ?_⟩
  · have hd := decodeWord_of_famF op (.ldDTVx x) x 0x15 rfl rfl hop
    exact ⟨_, step_of_exec_ok s _ op _ hf hd (exec_ldDTVx x _) rfl, rfl, State.look_tick _ .dt⟩
  · have hd := decodeWord_of_famF op (.ldSTVx x) x 0x18 rfl rfl hop
    exact ⟨_, step_of_exec_ok s _ op _ hf hd (exec_ldSTVx x _) rfl, rfl, State.look_tick _ .st⟩

end Sys2Proof.Machine
